-- ==== Sys2Proof/Word.lean ====
section
/-! DEFINITION. The word types of the block (00_scope.md R7, R14): a byte is 8 bits, a frame's command is 16 bits,
all values are unsigned. -/

namespace Sys2Proof

/-- One byte (R7: "A byte is 8 bits"); bit 0 is the least significant (R14). -/
abbrev Byte := BitVec 8

/-- A 16-bit unsigned value: a command (R34), the parser's `cmd` and `remaining` (R20). -/
abbrev Half := BitVec 16

end Sys2Proof
end

