-- ==== Sys2Proof/Config.lean ====
section
/-! DEFINITION. What an implementation of the block fixes (00_scope.md R7 and R8): the parameters the source fixes, and the
open parameters at the values R8 gives them. The block leaves no result of any operation undefined, so there is no free
value here (93_implementation_defined.md, Part 1). -/

namespace Sys2Proof.Config

/-- `PAYLOAD_MAX_V1` (R7): "the length field is one byte". -/
def payloadMaxV1 : Nat := 255

/-- `PAYLOAD_MAX_V2` (R7): "length field is two bytes". It is also the bound on every Frame's payload (R34). -/
def payloadMaxV2 : Nat := 65535

/-- `OVERHEAD_V1` (R7): a V1 frame is `6 + payload.length` bytes. -/
def overheadV1 : Nat := 6

/-- `OVERHEAD_V2` (R7): a V2 frame is `9 + payload.length` bytes. -/
def overheadV2 : Nat := 9

/-- The four parameters of the CRC-8 accumulator (R8, R111). -/
structure CrcParams where
  poly    : Byte
  init    : Byte
  reflect : Bool
  xorOut  : Byte
  deriving DecidableEq, Repr

/-- `CRC8_POLY` (R8, R111). PRESUMED by the spec itself from general knowledge (decision D6); log entry 1. -/
def crc8Poly : Byte := 0xD5

/-- `CRC8_INIT` (R8, R111). PRESUMED (decision D6); log entry 1. -/
def crc8Init : Byte := 0x00

/-- `CRC8_REFLECT` (R8, R111): false is most significant bit first. PRESUMED (decision D6); log entry 1. -/
def crc8Reflect : Bool := false

/-- `CRC8_XOROUT` (R8, R111). PRESUMED (decision D6); log entry 1. -/
def crc8XorOut : Byte := 0x00

/-- `V1_CMD_STRICT` (R8, decision D13): false truncates a V1 command to 8 bits and reports nothing. Log entry 3. -/
def v1CmdStrict : Bool := false

/-- `PBUF_CAP` (R8, decision D19): the capacity in bytes of a parser's payload buffer. Log entry 4. -/
def pbufCap : Nat := 65535

end Sys2Proof.Config
end

