-- ==== Sys2Proof/Machine/Flags.lean ====
section
/-! DEFINITION. The block has no status flags or condition codes (10_state.md R38). What it computes in their place are the two
check bytes: the XOR of 40_checksum_xor.md and the CRC-8 of 41_checksum_crc8.md. -/

namespace Sys2Proof.Machine

/-- R101, R41: the reset value of an XOR accumulator. -/
def xorInit : Byte := 0x00

/-- R102: `acc ^ b`. -/
def xorFold (acc b : Byte) : Byte := acc ^^^ b

/-- R103: the left fold of R102 over a byte sequence. -/
def xorBulk (acc : Byte) (bs : List Byte) : Byte := bs.foldl xorFold acc

/-- R105: `XOR(s)`. -/
def xorSum (bs : List Byte) : Byte := xorBulk xorInit bs

/-- R111: the parameters every CRC of this model uses. -/
def crcParams : Config.CrcParams :=
  { poly := Config.crc8Poly, init := Config.crc8Init, reflect := Config.crc8Reflect, xorOut := Config.crc8XorOut }

/-- R113: one of the eight shifts; the test is on bit 7 before the shift. -/
def crcShift (q : Config.CrcParams) (c : Byte) : Byte :=
  if c.msb then (c <<< 1) ^^^ q.poly else c <<< 1

/-- R113: `repeat n times`. -/
def crcShifts (q : Config.CrcParams) : Nat → Byte → Byte
  | 0, c => c
  | n + 1, c => crcShifts q n (crcShift q c)

/-- R111: an input byte as the shifts take it. With `CRC8_REFLECT` false it is the byte itself; with true its bits are reversed,
which no default uses. PRESUMED, log entry 1. -/
def crcInput (q : Config.CrcParams) (b : Byte) : Byte := if q.reflect then b.reverse else b

/-- R113: `CRC8.UPDATE` on a register value, for any parameters. -/
def crcFoldWith (q : Config.CrcParams) (crc b : Byte) : Byte := crcShifts q 8 (crc ^^^ crcInput q b)

/-- R115: `CRC8.FINALIZE`, for any parameters; the output is reversed only under `CRC8_REFLECT`. PRESUMED, log entry 1. -/
def crcFinalWith (q : Config.CrcParams) (crc : Byte) : Byte :=
  (if q.reflect then crc.reverse else crc) ^^^ q.xorOut

/-- R112, R41: the reset value of a CRC-8 accumulator. -/
def crcInit : Byte := crcParams.init

/-- R113: `CRC8.UPDATE` on a register value. -/
def crcFold (crc b : Byte) : Byte := crcFoldWith crcParams crc b

/-- R114: the left fold of R113 over a byte sequence. -/
def crcBulk (crc : Byte) (bs : List Byte) : Byte := bs.foldl crcFold crc

/-- R115: the value `CRC8.FINALIZE` returns for a register value. -/
def crcFinal (crc : Byte) : Byte := crcFinalWith crcParams crc

/-- R116: `CRC(s)`. -/
def crcSum (bs : List Byte) : Byte := crcFinal (crcBulk crcInit bs)

/-- R117: the table `T`, computed. -/
def crcTable : List Byte := (List.range 256).map fun i => crcFold 0x00 (BitVec.ofNat 8 i)

end Sys2Proof.Machine
end

