-- ==== Sys2Proof/Syntax.lean ====
section
/-! DEFINITION. The abstract syntax: the value types of 10_state.md R22 to R25 and R34 to R36, `Instr` with one constructor per
row of spec/opcode_table.json, and what the host can present to the block (R9, R90, R92). -/

namespace Sys2Proof

/-- R35: the closed set of the three directions. -/
inductive Direction where
  | toController
  | fromController
  | unsupported
  deriving DecidableEq, Repr

/-- R36: the revision operand of `FRAME.SIZE`. -/
inductive Revision where
  | v1
  | v2
  deriving DecidableEq, Repr

/-- R34: a Frame, `{ command, direction, payload }`. That `len(payload) <= 65535` is `Frame.fits` (WellFormed.lean). -/
structure Frame where
  command   : Half
  direction : Direction
  payload   : List Byte
  deriving DecidableEq, Repr

/-- R22: the eight phases of the parser. -/
inductive Phase where
  | awaitSync
  | versionTag
  | direction
  | flag
  | command
  | length
  | payload
  | checksum
  deriving DecidableEq, Repr

/-- R36, R23: the parser's `rev` field, with `NoRev` while no version tag has been decoded. -/
inductive RevField where
  | noRev
  | v1
  | v2
  deriving DecidableEq, Repr

/-- R25: the control state of a parser, the triple `(phase, rev, idx)`; `idx` is the 1-bit field of R24. -/
structure Control where
  phase : Phase
  rev   : RevField
  idx   : Bool
  deriving DecidableEq, Repr

/-- R25: the fifteen control states reachable from reset, by the ids of the table. -/
inductive StateId where
  | s0 | s1 | s2 | s3 | s4 | s5 | s6 | s7 | s8 | s9 | s10 | s11 | s12 | s13 | s14
  deriving DecidableEq, Repr

/-- One constructor per row of spec/opcode_table.json, with the row's operands (its `source_fields`).
A `parser-byte` row whose byte is fixed carries no operand; a `frame` row carries the fields of R72 or R73, its length
field being the length of the payload it carries. -/
inductive Instr where
  -- parser-byte rows (R81): the transition classes of P.FEED
  | asSync
  | asSkip (b : Byte)
  | vtV1
  | vtV2
  | vtBad (b : Byte)
  | dirTo
  | dirFrom
  | dirUns
  | dirBad (b : Byte)
  | v1Len (n : Byte)
  | v1Cmd (c : Byte)
  | v1Pay (d : Byte)
  | v1CkOk (k : Byte)
  | v1CkBad (k : Byte)
  | v2Flag (f : Byte)
  | v2CmdLo (c : Byte)
  | v2CmdHi (c : Byte)
  | v2LenLo (n : Byte)
  | v2LenHi (n : Byte)
  | v2Pay (d : Byte)
  | v2CkOk (k : Byte)
  | v2CkBad (k : Byte)
  -- frame rows (R72, R73)
  | frameV1 (d c : Byte) (p : List Byte) (k : Byte)
  | frameV2 (d f : Byte) (c : Half) (p : List Byte) (k : Byte)
  -- operation rows (R10)
  | xorReset
  | xorUpdate (b : Byte)
  | xorUpdateBulk (bs : List Byte)
  | xorValue
  | crc8Reset
  | crc8Update (b : Byte)
  | crc8UpdateBulk (bs : List Byte)
  | crc8Finalize
  | frameSize (f : Frame) (rev : Revision)
  | serV1 (f : Frame) (dstLen : Nat)
  | serV2 (f : Frame) (dstLen : Nat)
  | pReset
  | pFeed (b : Byte)
  deriving DecidableEq, Repr

/-- What the host can present to the block (R9: a program is the input byte stream of a parser, or an operation trace).
`byte` is one byte of a parser's input stream; `burst` is a run of stream bytes, the operand of R92's `P.FEEDS`; `op` is one
line of an operation trace (R90), which has no binary form (R82: the operation rows have no match and no mask). -/
inductive Request where
  | byte (b : Byte)
  | burst (bs : List Byte)
  | op (i : Instr)
  deriving DecidableEq, Repr

/-- One line of a trace (R90): the instance it is prefixed with, and what is presented to it. -/
structure Line where
  inst    : Nat
  request : Request
  deriving DecidableEq, Repr

end Sys2Proof
end

