-- ==== Sys2Proof/Machine/Operands.lean ====
section
/-! DEFINITION. The operand forms (30_encoding.md section 2): the six code points, the direction byte, splitting and assembling
two-byte fields, and the ids of the control states. -/

namespace Sys2Proof.Machine

/-- R71: the sync byte `'$'`. -/
def syncByte : Byte := 0x24

/-- R71: the version tag `'M'` of V1. -/
def tagV1 : Byte := 0x4D

/-- R71: the version tag `'X'` of V2. PRESUMED by the spec from ASCII (decision D7); log entry 2. -/
def tagV2 : Byte := 0x58

/-- R71: `'<'`. -/
def dirToByte : Byte := 0x3C

/-- R71: `'>'`. PRESUMED by the spec from ASCII (decision D7); log entry 2. -/
def dirFromByte : Byte := 0x3E

/-- R71: `'!'`. PRESUMED by the spec from ASCII (decision D7); log entry 2. -/
def dirUnsByte : Byte := 0x21

/-- R74: `dirByte`. -/
def dirByte : Direction → Byte
  | .toController   => dirToByte
  | .fromController => dirFromByte
  | .unsupported    => dirUnsByte

/-- R74: the partial inverse `dirOf`; none for the other 253 byte values. -/
def dirOf (b : Byte) : Option Direction :=
  if b = dirToByte then some .toController
  else if b = dirFromByte then some .fromController
  else if b = dirUnsByte then some .unsupported
  else none

/-- `v[7:0]` of a 16-bit value (R14, R76, R77). -/
def lowByte (h : Half) : Byte := h.setWidth 8

/-- `v[15:8]` of a 16-bit value (R14, R76, R77). -/
def highByte (h : Half) : Byte := (h >>> 8).setWidth 8

/-- `{hi, lo}` (R14): little-endian assembly of a two-byte field (R54, R76, R77). -/
def joinBytes (hi lo : Byte) : Half := hi ++ lo

/-- `zext_16` (R14, R75, R77). -/
def zext16 (b : Byte) : Half := b.setWidth 16

/-- `trunc_8` of a byte count (R14, R134): the V1 length field. -/
def lenByte (n : Nat) : Byte := BitVec.ofNat 8 n

/-- A byte count as the 16-bit V2 length field (R77). -/
def lenHalf (n : Nat) : Half := BitVec.ofNat 16 n

/-- R25: the id of a control state; none for a triple no run from reset reaches (R175). -/
def controlId (c : Control) : Option StateId :=
  match c.phase, c.rev, c.idx with
  | .awaitSync,  .noRev, false => some .s0
  | .versionTag, .noRev, false => some .s1
  | .direction,  .v1,    false => some .s2
  | .direction,  .v2,    false => some .s3
  | .length,     .v1,    false => some .s4
  | .command,    .v1,    false => some .s5
  | .payload,    .v1,    false => some .s6
  | .checksum,   .v1,    false => some .s7
  | .flag,       .v2,    false => some .s8
  | .command,    .v2,    false => some .s9
  | .command,    .v2,    true  => some .s10
  | .length,     .v2,    false => some .s11
  | .length,     .v2,    true  => some .s12
  | .payload,    .v2,    false => some .s13
  | .checksum,   .v2,    false => some .s14
  | _, _, _ => none

/-- R25, read the other way: the triple of each of the fifteen control states. -/
def controlOf : StateId → Control
  | .s0  => ⟨.awaitSync,  .noRev, false⟩
  | .s1  => ⟨.versionTag, .noRev, false⟩
  | .s2  => ⟨.direction,  .v1,    false⟩
  | .s3  => ⟨.direction,  .v2,    false⟩
  | .s4  => ⟨.length,     .v1,    false⟩
  | .s5  => ⟨.command,    .v1,    false⟩
  | .s6  => ⟨.payload,    .v1,    false⟩
  | .s7  => ⟨.checksum,   .v1,    false⟩
  | .s8  => ⟨.flag,       .v2,    false⟩
  | .s9  => ⟨.command,    .v2,    false⟩
  | .s10 => ⟨.command,    .v2,    true⟩
  | .s11 => ⟨.length,     .v2,    false⟩
  | .s12 => ⟨.length,     .v2,    true⟩
  | .s13 => ⟨.payload,    .v2,    false⟩
  | .s14 => ⟨.checksum,   .v2,    false⟩

end Sys2Proof.Machine
end

