-- ==== Sys2Proof/WellFormed.lean ====
section
/-! DEFINITION. Which terms of `Instr` are instructions of the table: operands that fit their fields (`fits`), and the legal values
of R72 and R73 (`legal`); and R88's whole-frame predicates on byte sequences. -/

namespace Sys2Proof

open Sys2Proof.Machine

/-- R34: a Frame's payload has at most 65535 bytes. -/
def Frame.fits (f : Frame) : Bool := decide (f.payload.length ≤ Config.payloadMaxV2)

/-- The operands fit: a row with a class of bytes has a byte of that class (R81), a frame row's payload fits its length field
(R72, R73), and a Frame operand is a Frame (R34). -/
def Instr.fits : Instr → Bool
  | .asSync => true
  | .asSkip b => decide (b ≠ syncByte)
  | .vtV1 => true
  | .vtV2 => true
  | .vtBad b => decide (b ≠ tagV1) && decide (b ≠ tagV2)
  | .dirTo => true
  | .dirFrom => true
  | .dirUns => true
  | .dirBad b => (dirOf b).isNone
  | .v1Len _ => true
  | .v1Cmd _ => true
  | .v1Pay _ => true
  | .v1CkOk _ => true
  | .v1CkBad _ => true
  | .v2Flag _ => true
  | .v2CmdLo _ => true
  | .v2CmdHi _ => true
  | .v2LenLo _ => true
  | .v2LenHi _ => true
  | .v2Pay _ => true
  | .v2CkOk _ => true
  | .v2CkBad _ => true
  | .frameV1 _ _ p _ => decide (p.length ≤ Config.payloadMaxV1)
  | .frameV2 _ _ _ p _ => decide (p.length ≤ Config.payloadMaxV2)
  | .xorReset => true
  | .xorUpdate _ => true
  | .xorUpdateBulk _ => true
  | .xorValue => true
  | .crc8Reset => true
  | .crc8Update _ => true
  | .crc8UpdateBulk _ => true
  | .crc8Finalize => true
  | .frameSize f _ => f.fits
  | .serV1 f _ => f.fits
  | .serV2 f _ => f.fits
  | .pReset => true
  | .pFeed _ => true

/-- The bytes the V1 checksum covers (R78): length, command, payload. -/
def coveredV1 (c : Byte) (p : List Byte) : List Byte := lenByte p.length :: c :: p

/-- The bytes the V2 checksum covers (R79): flag, command, length, payload. -/
def coveredV2 (f : Byte) (c : Half) (p : List Byte) : List Byte :=
  f :: lowByte c :: highByte c :: lowByte (lenHalf p.length) :: highByte (lenHalf p.length) :: p

/-- The legal values of R72 and R73 for a frame row: a direction byte of the three, and the checksum of R78 or R79. The flag of a
V2 frame may have any value on receive (R84). No other row has an illegal value. -/
def Instr.legal : Instr → Bool
  | .frameV1 d c p k => (dirOf d).isSome && decide (k = xorSum (coveredV1 c p))
  | .frameV2 d f c p k => (dirOf d).isSome && decide (k = crcSum (coveredV2 f c p))
  | .asSync => true
  | .asSkip _ => true
  | .vtV1 => true
  | .vtV2 => true
  | .vtBad _ => true
  | .dirTo => true
  | .dirFrom => true
  | .dirUns => true
  | .dirBad _ => true
  | .v1Len _ => true
  | .v1Cmd _ => true
  | .v1Pay _ => true
  | .v1CkOk _ => true
  | .v1CkBad _ => true
  | .v2Flag _ => true
  | .v2CmdLo _ => true
  | .v2CmdHi _ => true
  | .v2LenLo _ => true
  | .v2LenHi _ => true
  | .v2Pay _ => true
  | .v2CkOk _ => true
  | .v2CkBad _ => true
  | .xorReset => true
  | .xorUpdate _ => true
  | .xorUpdateBulk _ => true
  | .xorValue => true
  | .crc8Reset => true
  | .crc8Update _ => true
  | .crc8UpdateBulk _ => true
  | .crc8Finalize => true
  | .frameSize _ _ => true
  | .serV1 _ _ => true
  | .serV2 _ _ => true
  | .pReset => true
  | .pFeed _ => true

/-- A well-formed instruction: operands that fit and legal values. -/
def Instr.wf (i : Instr) : Bool := i.fits && i.legal

/-- Whether a row is one of the thirteen operations of R10, the rows a trace line may name. -/
def Instr.isOperation : Instr → Bool
  | .asSync => false
  | .asSkip _ => false
  | .vtV1 => false
  | .vtV2 => false
  | .vtBad _ => false
  | .dirTo => false
  | .dirFrom => false
  | .dirUns => false
  | .dirBad _ => false
  | .v1Len _ => false
  | .v1Cmd _ => false
  | .v1Pay _ => false
  | .v1CkOk _ => false
  | .v1CkBad _ => false
  | .v2Flag _ => false
  | .v2CmdLo _ => false
  | .v2CmdHi _ => false
  | .v2LenLo _ => false
  | .v2LenHi _ => false
  | .v2Pay _ => false
  | .v2CkOk _ => false
  | .v2CkBad _ => false
  | .frameV1 _ _ _ _ => false
  | .frameV2 _ _ _ _ _ => false
  | .xorReset => true
  | .xorUpdate _ => true
  | .xorUpdateBulk _ => true
  | .xorValue => true
  | .crc8Reset => true
  | .crc8Update _ => true
  | .crc8UpdateBulk _ => true
  | .crc8Finalize => true
  | .frameSize _ _ => true
  | .serV1 _ _ => true
  | .serV2 _ _ => true
  | .pReset => true
  | .pFeed _ => true

/-- R88: `w` is a well-formed V1 frame. `w[3 .. len(w)-2]` is all but the first three bytes and the last. -/
def isV1Frame (w : List Byte) : Bool :=
  decide (6 ≤ w.length) && decide (w.getD 0 0 = syncByte) && decide (w.getD 1 0 = tagV1) && (dirOf (w.getD 2 0)).isSome
    && decide (w.length = 6 + (w.getD 3 0).toNat) && decide (w.getLastD 0 = xorSum (w.drop 3).dropLast)

/-- R88: the Frame a well-formed V1 frame denotes; none where its direction byte is none of the three. -/
def denoteV1 (w : List Byte) : Option Frame :=
  (dirOf (w.getD 2 0)).map fun d =>
    { command := zext16 (w.getD 4 0), direction := d, payload := (w.drop 5).dropLast }

/-- R88: `w` is a well-formed V2 frame. -/
def isV2Frame (w : List Byte) : Bool :=
  decide (9 ≤ w.length) && decide (w.getD 0 0 = syncByte) && decide (w.getD 1 0 = tagV2) && (dirOf (w.getD 2 0)).isSome
    && decide (w.length = 9 + (w.getD 6 0).toNat + 256 * (w.getD 7 0).toNat)
    && decide (w.getLastD 0 = crcSum (w.drop 3).dropLast)

/-- R88: the Frame a well-formed V2 frame denotes; the flag is not part of it. -/
def denoteV2 (w : List Byte) : Option Frame :=
  (dirOf (w.getD 2 0)).map fun d =>
    { command := joinBytes (w.getD 5 0) (w.getD 4 0), direction := d, payload := (w.drop 8).dropLast }

end Sys2Proof
end

