-- ==== Sys2Proof/Decode.lean ====
section
/-! DEFINITION. Decoding and encoding. A byte of a parser's stream is decoded by the pair (control state, class of the byte)
through the `parser-byte` rows of spec/opcode_table.json (R81, R82); a run of bytes by the `frame` rows (R72, R73, R80); an
operation has no binary form (R82) and stands in a trace as itself (R90). -/

namespace Sys2Proof

open Sys2Proof.Machine

/-- What decoding a stream byte depends on beside the byte (R81): the control state, and the two accumulator values that are the
class boundaries of the two `Checksum` states. -/
structure Context where
  state    : StateId
  xorAcc   : Byte
  crcFinal : Byte
  deriving DecidableEq, Repr

/-- The `match` of a `parser-byte` row (R82): a constant, or the value of an accumulator. -/
inductive RowMatch where
  | const (b : Byte)
  | xorAcc
  | crcFinal
  deriving DecidableEq, Repr

/-- A `parser-byte` row of the table (R82). `instr` builds the row's instruction from the byte. -/
structure ByteRow where
  states   : List StateId
  value    : RowMatch
  mask     : Byte
  priority : Nat
  instr    : Byte → Instr

/-- The value a row's `match` stands for. -/
def RowMatch.of (c : Context) : RowMatch → Byte
  | .const b => b
  | .xorAcc => c.xorAcc
  | .crcFinal => c.crcFinal

/-- R82: a row applies in its states when `(b & mask) = match`. -/
def ByteRow.applies (r : ByteRow) (c : Context) (b : Byte) : Bool :=
  decide (c.state ∈ r.states) && decide (b &&& r.mask = r.value.of c)

/-- The rows of control states S0 to S3. -/
def headerRows : List ByteRow :=
  [⟨[.s0], .const syncByte, 0xFF, 1, fun _ => .asSync⟩,
   ⟨[.s0], .const 0x00, 0x00, 2, .asSkip⟩,
   ⟨[.s1], .const tagV1, 0xFF, 1, fun _ => .vtV1⟩,
   ⟨[.s1], .const tagV2, 0xFF, 2, fun _ => .vtV2⟩,
   ⟨[.s1], .const 0x00, 0x00, 3, .vtBad⟩,
   ⟨[.s2, .s3], .const dirToByte, 0xFF, 1, fun _ => .dirTo⟩,
   ⟨[.s2, .s3], .const dirFromByte, 0xFF, 2, fun _ => .dirFrom⟩,
   ⟨[.s2, .s3], .const dirUnsByte, 0xFF, 3, fun _ => .dirUns⟩,
   ⟨[.s2, .s3], .const 0x00, 0x00, 4, .dirBad⟩]

/-- The rows of the V1 control states S4 to S7. -/
def bodyRowsV1 : List ByteRow :=
  [⟨[.s4], .const 0x00, 0x00, 1, .v1Len⟩,
   ⟨[.s5], .const 0x00, 0x00, 1, .v1Cmd⟩,
   ⟨[.s6], .const 0x00, 0x00, 1, .v1Pay⟩,
   ⟨[.s7], .xorAcc, 0xFF, 1, .v1CkOk⟩,
   ⟨[.s7], .const 0x00, 0x00, 2, .v1CkBad⟩]

/-- The rows of the V2 control states S8 to S14. -/
def bodyRowsV2 : List ByteRow :=
  [⟨[.s8], .const 0x00, 0x00, 1, .v2Flag⟩,
   ⟨[.s9], .const 0x00, 0x00, 1, .v2CmdLo⟩,
   ⟨[.s10], .const 0x00, 0x00, 1, .v2CmdHi⟩,
   ⟨[.s11], .const 0x00, 0x00, 1, .v2LenLo⟩,
   ⟨[.s12], .const 0x00, 0x00, 1, .v2LenHi⟩,
   ⟨[.s13], .const 0x00, 0x00, 1, .v2Pay⟩,
   ⟨[.s14], .crcFinal, 0xFF, 1, .v2CkOk⟩,
   ⟨[.s14], .const 0x00, 0x00, 2, .v2CkBad⟩]

/-- The 22 `parser-byte` rows, those of one state in order of priority (R82). -/
def byteRows : List ByteRow := headerRows ++ bodyRowsV1 ++ bodyRowsV2

/-- R81: the instruction a stream byte is in a control state: the first row of the state that applies. -/
def decodeByte (c : Context) (b : Byte) : Option Instr :=
  (byteRows.find? fun r => r.applies c b).map fun r => r.instr b

/-- The body of a V1 frame after its two header bytes (R72, R80): `d n c`, `n` payload bytes, `k`; with the bytes that follow. -/
def decodeBodyV1 : List Byte → Option (Instr × List Byte)
  | d :: n :: c :: rest =>
    match rest.drop n.toNat with
    | k :: after => some (.frameV1 d c (rest.take n.toNat) k, after)
    | [] => none
  | _ => none

/-- The body of a V2 frame after its two header bytes (R73, R80): `d f c C n N`, `{N, n}` payload bytes, `k`; with the bytes that
follow. -/
def decodeBodyV2 : List Byte → Option (Instr × List Byte)
  | d :: f :: cLo :: cHi :: nLo :: nHi :: rest =>
    match rest.drop (joinBytes nHi nLo).toNat with
    | k :: after => some (.frameV2 d f (joinBytes cHi cLo) (rest.take (joinBytes nHi nLo).toNat) k, after)
    | [] => none
  | _ => none

/-- R70, R80: a frame row is told by its first two bytes, and its length by its own length field. The answer is the instruction and
the bytes after it; none where no frame row matches or the bytes end before the frame does. -/
def decodeFrame : List Byte → Option (Instr × List Byte)
  | s :: t :: body =>
    if s = syncByte then
      if t = tagV1 then decodeBodyV1 body
      else if t = tagV2 then decodeBodyV2 body
      else none
    else none
  | _ => none

/-- Why a request is not an instruction of the table. -/
inductive Reject where
  /-- The parser is in a control state no row of the table decodes (R175). -/
  | unreachableControl
  /-- The bytes of a burst do not begin with a whole frame. -/
  | noFrameRow
  /-- A trace line names a row that is not one of the thirteen operations of R10. -/
  | notAnOperation
  /-- A trace line's operands do not fit: its Frame has more than 65535 payload bytes (R34). -/
  | operandsDoNotFit
  deriving DecidableEq, Repr

/-- Decoding, total on every request. A context of none is a control state outside the fifteen. The list is the rest of a burst. -/
def decode (c : Option Context) : Request → Except Reject (Instr × List Byte)
  | .byte b =>
    match c with
    | none => .error .unreachableControl
    | some c =>
      match decodeByte c b with
      | some i => .ok (i, [])
      | none => .error .unreachableControl
  | .burst bs =>
    match decodeFrame bs with
    | some r => .ok r
    | none => .error .noFrameRow
  | .op i =>
    if i.isOperation then
      if i.fits then .ok (i, []) else .error .operandsDoNotFit
    else .error .notAnOperation

/-- The wire bytes of a V1 frame with given fields (R72): `24 4D d n c p k`. -/
def frameBytesV1 (d c : Byte) (p : List Byte) (k : Byte) : List Byte :=
  syncByte :: tagV1 :: d :: lenByte p.length :: c :: (p ++ [k])

/-- The wire bytes of a V2 frame with given fields (R73): `24 58 d f c C n N p k`. -/
def frameBytesV2 (d f : Byte) (c : Half) (p : List Byte) (k : Byte) : List Byte :=
  syncByte :: tagV2 :: d :: f :: lowByte c :: highByte c :: lowByte (lenHalf p.length) :: highByte (lenHalf p.length) :: (p ++ [k])

/-- The encoder, from the same rows: what the host presents for each instruction. -/
def encode : Instr → Request
  | .asSync => .byte 0x24
  | .asSkip b => .byte b
  | .vtV1 => .byte 0x4D
  | .vtV2 => .byte 0x58
  | .vtBad b => .byte b
  | .dirTo => .byte 0x3C
  | .dirFrom => .byte 0x3E
  | .dirUns => .byte 0x21
  | .dirBad b => .byte b
  | .v1Len n => .byte n
  | .v1Cmd c => .byte c
  | .v1Pay d => .byte d
  | .v1CkOk k => .byte k
  | .v1CkBad k => .byte k
  | .v2Flag f => .byte f
  | .v2CmdLo c => .byte c
  | .v2CmdHi c => .byte c
  | .v2LenLo n => .byte n
  | .v2LenHi n => .byte n
  | .v2Pay d => .byte d
  | .v2CkOk k => .byte k
  | .v2CkBad k => .byte k
  | .frameV1 d c p k => .burst (frameBytesV1 d c p k)
  | .frameV2 d f c p k => .burst (frameBytesV2 d f c p k)
  | .xorReset => .op .xorReset
  | .xorUpdate b => .op (.xorUpdate b)
  | .xorUpdateBulk bs => .op (.xorUpdateBulk bs)
  | .xorValue => .op .xorValue
  | .crc8Reset => .op .crc8Reset
  | .crc8Update b => .op (.crc8Update b)
  | .crc8UpdateBulk bs => .op (.crc8UpdateBulk bs)
  | .crc8Finalize => .op .crc8Finalize
  | .frameSize f rev => .op (.frameSize f rev)
  | .serV1 f n => .op (.serV1 f n)
  | .serV2 f n => .op (.serV2 f n)
  | .pReset => .op .pReset
  | .pFeed b => .op (.pFeed b)

/-- Where a `parser-byte` row may be encoded: the row's control states of R81, and for the two checksum rows the side of the
accumulator the byte is on. Written from R81, not from the rows; the other rows are decoded in every context. -/
def Instr.encodable (c : Context) : Instr → Bool
  | .asSync => decide (c.state = .s0)
  | .asSkip _ => decide (c.state = .s0)
  | .vtV1 => decide (c.state = .s1)
  | .vtV2 => decide (c.state = .s1)
  | .vtBad _ => decide (c.state = .s1)
  | .dirTo => decide (c.state = .s2 ∨ c.state = .s3)
  | .dirFrom => decide (c.state = .s2 ∨ c.state = .s3)
  | .dirUns => decide (c.state = .s2 ∨ c.state = .s3)
  | .dirBad _ => decide (c.state = .s2 ∨ c.state = .s3)
  | .v1Len _ => decide (c.state = .s4)
  | .v1Cmd _ => decide (c.state = .s5)
  | .v1Pay _ => decide (c.state = .s6)
  | .v1CkOk k => decide (c.state = .s7 ∧ k = c.xorAcc)
  | .v1CkBad k => decide (c.state = .s7 ∧ k ≠ c.xorAcc)
  | .v2Flag _ => decide (c.state = .s8)
  | .v2CmdLo _ => decide (c.state = .s9)
  | .v2CmdHi _ => decide (c.state = .s10)
  | .v2LenLo _ => decide (c.state = .s11)
  | .v2LenHi _ => decide (c.state = .s12)
  | .v2Pay _ => decide (c.state = .s13)
  | .v2CkOk k => decide (c.state = .s14 ∧ k = c.crcFinal)
  | .v2CkBad k => decide (c.state = .s14 ∧ k ≠ c.crcFinal)
  | .frameV1 _ _ _ _ => true
  | .frameV2 _ _ _ _ _ => true
  | .xorReset => true
  | .xorUpdate _ => true
  | .xorUpdateBulk _ => true
  | .xorValue => true
  | .crc8Reset => true
  | .crc8Update _ => true
  | .crc8UpdateBulk _ => true
  | .crc8Finalize => true
  | .frameSize _ _ => true
  | .serV1 _ _ => true
  | .serV2 _ _ => true
  | .pReset => true
  | .pFeed _ => true

/-- The control state whose fixed row a bare table byte is: the table gives a row's byte and the state apart, so a word of the table
alone is read in the first state that has a row for exactly that byte, and in S0 where none has. DESIGN CHOICE, log entry 8. -/
def tableState (b : Byte) : StateId :=
  match byteRows.find? fun r => decide (r.mask = 0xFF) && decide (r.value = .const b) with
  | some r => r.states.headD .s0
  | none => .s0

/-- The bytes of a table word of `n` bytes, first byte in the upper bits: R82 numbers a frame row's `match` with the "sync byte in
the upper 8 bits". -/
def tableBytes : Nat → Nat → List Byte
  | 0, _ => []
  | n + 1, w => BitVec.ofNat 8 (w / 256 ^ n) :: tableBytes n w

/-- A frame row's table word with every later byte 0 (log entry 8), cut to the one frame it begins. -/
def tableFrame (nbits w : Nat) : List Byte :=
  let bs := tableBytes (nbits / 8) w ++ [0, 0, 0, 0, 0, 0, 0]
  match decodeFrame bs with
  | some (_, after) => bs.take (bs.length - after.length)
  | none => bs

/-- The instruction the decoder reads from a word of spec/opcode_table.json: a byte in its `tableState`, two bytes or more as a
frame row. -/
def decodeTableWord (nbits w : Nat) : Option Instr :=
  if nbits = 8 then decodeByte ⟨tableState (BitVec.ofNat 8 w), 0, 0⟩ (BitVec.ofNat 8 w)
  else (decodeFrame (tableFrame nbits w)).map fun r => r.1

end Sys2Proof
end

