-- ==== Sys2Proof/Machine/State.lean ====
section
/-! DEFINITION. The machine's state as plain data (10_state.md), the results operations deliver, and the reasons a step stops. -/

namespace Sys2Proof.Machine

/-- R200, R37: the three errors of `P.FEED`. -/
inductive ParseError where
  /-- R201: the byte after a sync byte is no version tag. -/
  | invalidHeader
  /-- R202: the byte after a version tag is no direction byte. -/
  | invalidDirection
  /-- R203: `expected` is the byte seen on the wire, `calculated` what the parser computed. -/
  | checksumMismatch (expected calculated : Byte)
  deriving DecidableEq, Repr

/-- R16, R37: the result of a `P.FEED`. -/
inductive FeedResult where
  | noFrame
  | frame (f : Frame)
  | err (e : ParseError)
  deriving DecidableEq, Repr

/-- R16, R37: the result of `SER.V1` and `SER.V2`. -/
inductive SerResult where
  | ok (bs : List Byte)
  | sizeMismatch
  deriving DecidableEq, Repr

/-- The result of an operation that has one (R37, R104, R115, R131). -/
inductive Result where
  | feed (r : FeedResult)
  | ser (r : SerResult)
  | size (n : Nat)
  | xorValue (b : Byte)
  | crcValue (b : Byte)
  deriving DecidableEq, Repr

/-- One result as the host receives it (R90): the instance the operation was addressed to, and the result. -/
structure Delivery where
  inst   : Nat
  result : Result
  deriving DecidableEq, Repr

/-- R20: the ParserState of one parser instance. The payload buffer is held as the list of bytes received so far, as R51 allows;
the append pointer `wptr` is the list's length. -/
structure ParserState where
  phase     : Phase
  rev       : RevField
  idx       : Bool
  dir       : Direction
  cmd       : Half
  remaining : Half
  payload   : List Byte
  xorAcc    : Byte
  crcAcc    : Byte
  deriving DecidableEq, Repr

/-- A byte memory: pairs of address and byte, addresses strictly rising. An address with no pair holds no byte of the block's. -/
abbrev Memory := List Host.Cell

/-- The whole machine. The first four fields are the block's; the last three are the model's own record of the host's side.
Instances are numbered by Nat; the three lists hold only the instances whose value is not the reset value (Ops.lean). -/
structure State where
  /-- R20, R21, R222: one ParserState per parser instance. -/
  parsers   : List (Nat × ParserState)
  /-- R41: the register `acc` of each stand-alone XOR accumulator. -/
  xorAccs   : List (Nat × Byte)
  /-- R41: the register `crc` of each stand-alone CRC-8 accumulator. -/
  crcAccs   : List (Nat × Byte)
  /-- R50 (c), R52: the destination memory of serialize calls, index 0 being the first byte of `dst`. -/
  dst       : Memory
  /-- The instance the operation in progress is addressed to: the prefix of its trace line (R90). -/
  cur       : Nat
  /-- What the host has presented and the block has not yet taken, first to be taken first (R61, R90). -/
  pending   : List Line
  /-- The results the host has received, oldest first (R38, R240). -/
  delivered : List Delivery
  deriving DecidableEq, Repr

/-- There is no fault: "No behaviour of this block is treated as `fault`" (93_implementation_defined.md Part 1), and R212: errors
are ordinary results. The type is closed and empty. -/
inductive Fault where
  deriving DecidableEq, Repr

/-- Why a step has no meaning. Every one is safe: the model stops, and nothing can be proved of a run that goes on. -/
inductive Refusal where
  /-- An arm of `exec` that has no meaning yet; none is left. Safe. -/
  | notModelled (mnemonic : String)
  /-- `P.FEED` and stream bytes, in a control state outside the fifteen of R25 (R175, R207). Safe. -/
  | unreachableControl
  /-- A `parser-byte` row, run where R81 selects another row: the rule's "applies when" does not hold. Decoding never issues it
  there. Safe. -/
  | rowNotSelected
  /-- `V1.PAY` and `V2.PAY` with `remaining = 0`, against the rules' entry condition (R168, R169); no run reaches it. Safe. -/
  | payloadComplete
  /-- `V1.PAY`, `V2.PAY` with the payload buffer full, and `V2.LEN.HI` under a smaller `PBUF_CAP` (R51, decision D19); no run reaches
  it at the default capacity. Safe. -/
  | payloadOverCapacity
  /-- `SER.V1` with more than 255 payload bytes (R132, R207). Safe. -/
  | payloadOverV1Limit
  /-- `SER.V1` with a command above 255 under `V1_CMD_STRICT` (decision D13); never at the default. Safe. -/
  | commandOverV1Field
  /-- `SER.V2` with more than 65535 payload bytes, which is no Frame (R34, R132), and a trace line with such a Frame. Safe. -/
  | notAFrame
  /-- A trace line that names a row that is not an operation of R10. Safe. -/
  | notAnOperation
  deriving DecidableEq, Repr

/-- R230, R231, R40: after reset every parser instance is in `INIT` and every accumulator holds its reset value, which is what a list
with no entries says; the host has presented nothing and received nothing. -/
def State.reset : State :=
  { parsers := [], xorAccs := [], crcAccs := [], dst := [], cur := 0, pending := [], delivered := [] }

end Sys2Proof.Machine
end

