-- ==== Sys2Proof/Machine/Ops.lean ====
section
/-! DEFINITION. The shared operations over registers, memory, results and errors. -/

namespace Sys2Proof.Machine

/-! ### Numbered lists in canonical form: numbers strictly rising, no entry equal to the default -/

/-- The value entered under a number, if any. -/
def bankFind {α : Type} (k : Nat) : List (Nat × α) → Option α
  | [] => none
  | (j, v) :: m => if j = k then some v else bankFind k m

/-- Enter a value under a number, keeping the numbers in order. -/
def bankInsert {α : Type} (k : Nat) (v : α) : List (Nat × α) → List (Nat × α)
  | [] => [(k, v)]
  | (j, w) :: m =>
    if k < j then (k, v) :: (j, w) :: m
    else if k = j then (k, v) :: m
    else (j, w) :: bankInsert k v m

/-- Remove what is entered under a number. -/
def bankErase {α : Type} (k : Nat) (m : List (Nat × α)) : List (Nat × α) := m.filter fun e => decide (e.1 ≠ k)

/-- The value under a number; the default where none is entered. -/
def bankGet {α : Type} (dflt : α) (k : Nat) (m : List (Nat × α)) : α := (bankFind k m).getD dflt

/-- Write the value under a number; writing the default removes the entry. -/
def bankPut {α : Type} [DecidableEq α] (dflt : α) (k : Nat) (v : α) (m : List (Nat × α)) : List (Nat × α) :=
  if v = dflt then bankErase k m else bankInsert k v m

/-- The numbers rise strictly. -/
def bankSorted {α : Type} : List (Nat × α) → Bool
  | [] => true
  | (j, _) :: m => m.all (fun e => decide (j < e.1)) && bankSorted m

/-- The canonical form: numbers rise strictly and no entry is the default. -/
def bankWf {α : Type} [DecidableEq α] (dflt : α) (m : List (Nat × α)) : Bool :=
  bankSorted m && m.all fun e => decide (e.2 ≠ dflt)

/-! ### Byte memory (20_memory.md R50 to R53) -/

/-- R53: read one byte; none at an index no serialize call has written, where the byte is the caller's (log entry 6). The block itself
never reads its destination (R52). -/
def Memory.read (m : Memory) (a : Nat) : Option Byte := bankFind a m

/-- R53: `MemWrite(buf, a, 1, v)`. -/
def Memory.write (m : Memory) (a : Nat) (v : Byte) : Memory := bankInsert a v m

/-- R52: write a byte sequence at consecutive indices from `a`. -/
def Memory.writeAll (m : Memory) (a : Nat) : List Byte → Memory
  | [] => m
  | v :: vs => (m.writeAll (a + 1) vs).write a v

/-- The canonical form. An unlisted index reads as no byte at all, so no entry can equal it. -/
def Memory.wf (m : Memory) : Bool := bankSorted m

/-! ### The registers -/

/-- R40: `INIT`, the reset value of a ParserState. -/
def ParserState.init : ParserState :=
  { phase := .awaitSync, rev := .noRev, idx := false, dir := .toController, cmd := 0, remaining := 0, payload := [],
    xorAcc := xorInit, crcAcc := crcInit }

/-- R25: the control state `(phase, rev, idx)`. -/
def ParserState.control (p : ParserState) : Control := ⟨p.phase, p.rev, p.idx⟩

/-- R25: the control state's id; none outside the fifteen. -/
def ParserState.stateId (p : ParserState) : Option StateId := controlId p.control

/-- The ParserState of instance `k`; an instance starts in `INIT` (R222, R230). -/
def State.parser (s : State) (k : Nat) : ParserState := bankGet ParserState.init k s.parsers

/-- Write the ParserState of instance `k`. -/
def State.setParser (s : State) (k : Nat) (p : ParserState) : State :=
  { s with parsers := bankPut ParserState.init k p s.parsers }

/-- The register `acc` of stand-alone XOR accumulator `k` (R41, R100). -/
def State.xorReg (s : State) (k : Nat) : Byte := bankGet xorInit k s.xorAccs

/-- Write the register `acc` of stand-alone XOR accumulator `k`. -/
def State.setXorReg (s : State) (k : Nat) (v : Byte) : State :=
  { s with xorAccs := bankPut xorInit k v s.xorAccs }

/-- The register `crc` of stand-alone CRC-8 accumulator `k` (R41, R110). -/
def State.crcReg (s : State) (k : Nat) : Byte := bankGet crcInit k s.crcAccs

/-- Write the register `crc` of stand-alone CRC-8 accumulator `k`. -/
def State.setCrcReg (s : State) (k : Nat) (v : Byte) : State :=
  { s with crcAccs := bankPut crcInit k v s.crcAccs }

/-- The parser the operation in progress is addressed to. -/
def State.curParser (s : State) : ParserState := s.parser s.cur

/-- Whether the addressed parser is in a control state. -/
def State.controlIs (s : State) (i : StateId) : Bool := decide (s.curParser.stateId = some i)

/-! ### Results and errors -/

/-- R38: a result is delivered once, with the operation. -/
def State.deliver (s : State) (r : Result) : State :=
  { s with delivered := s.delivered ++ [⟨s.cur, r⟩] }

/-- A `P.FEED` that ends with `None` and leaves the addressed parser in `p`. -/
def State.advance (s : State) (p : ParserState) : State :=
  (s.setParser s.cur p).deliver (.feed .noFrame)

/-- R33, R170, R172: a `P.FEED` that ends with `Frame(f)`: the parser returns to `INIT`, then the Frame is delivered. -/
def State.complete (s : State) (f : Frame) : State :=
  (s.setParser s.cur ParserState.init).deliver (.feed (.frame f))

/-- R210: a parser error. The error value is formed by the caller from the state before; every field of the ParserState is written
with its reset value; the error is delivered. Nothing is saved and control goes nowhere; there is no return from it (R213). -/
def State.raiseParse (s : State) (e : ParseError) : State :=
  (s.setParser s.cur ParserState.init).deliver (.feed (.err e))

/-- R211, R133: the serializer error. No location of the destination is written and there is no state to reset. -/
def State.raiseSize (s : State) : State := s.deliver (.ser .sizeMismatch)

/-- R200: the code of an error result; 0 is left for "no error" (decision D11). -/
def Result.code : Result → Nat
  | .ser .sizeMismatch => 1
  | .feed (.err .invalidHeader) => 2
  | .feed (.err .invalidDirection) => 3
  | .feed (.err (.checksumMismatch _ _)) => 4
  | .feed .noFrame => 0
  | .feed (.frame _) => 0
  | .ser (.ok _) => 0
  | .size _ => 0
  | .xorValue _ => 0
  | .crcValue _ => 0

/-- A `parser-byte` row's meaning where its rule applies; elsewhere the row has none (R81). -/
def whenSelected (applies : Bool) (t : State) : Host.Outcome State Fault Refusal :=
  if applies then .next t else .refused .rowNotSelected

/-! ### What the host does -/

/-- R240: the host presents further lines of its trace. -/
def State.present (s : State) (ls : List Line) : State := { s with pending := s.pending ++ ls }

/-- R92: `P.FEEDS` on one instance, as the `P.FEED`s it abbreviates. -/
def feedLines (k : Nat) (bs : List Byte) : List Line := bs.map fun b => ⟨k, .byte b⟩

end Sys2Proof.Machine
end

