-- ==== Sys2Proof/Machine/Crc8.lean ====
section
/-! DEFINITION. The stand-alone CRC-8 accumulator (41_checksum_crc8.md). -/

namespace Sys2Proof.Machine

/-- R112 `CRC8.RESET`: `crc <- CRC8_INIT`. -/
def execCrc8Reset (s : State) : Host.Outcome State Fault Refusal :=
  .next (s.setCrcReg s.cur crcInit)

/-- R113 `CRC8.UPDATE(b)`. -/
def execCrc8Update (b : Byte) (s : State) : Host.Outcome State Fault Refusal :=
  .next (s.setCrcReg s.cur (crcFold (s.crcReg s.cur) b))

/-- R114 `CRC8.UPDATE_BULK(bs)`: the left fold of R113 over `bs`. -/
def execCrc8UpdateBulk (bs : List Byte) (s : State) : Host.Outcome State Fault Refusal :=
  .next (s.setCrcReg s.cur (crcBulk (s.crcReg s.cur) bs))

/-- R115 `CRC8.FINALIZE`: `return crc ^ CRC8_XOROUT`; the register is not changed. -/
def execCrc8Finalize (s : State) : Host.Outcome State Fault Refusal :=
  .next (s.deliver (.crcValue (crcFinal (s.crcReg s.cur))))

end Sys2Proof.Machine
end

