-- ==== Sys2Proof/Machine/Parser.lean ====
section
/-! DEFINITION. The streaming parser (43_parser.md): the meaning of each transition class, `P.FEED` by R81's map, and `P.RESET`. -/

namespace Sys2Proof.Machine

/-! ### Shared steps of the rules -/

/-- R157 to R159: `dir` is written, and after `Direction` comes `Length` under V1 and `Flag` under V2. -/
def ParserState.takeDirection (p : ParserState) (d : Direction) : ParserState :=
  { p with dir := d, phase := if p.rev = .v1 then .length else .flag }

/-- R162, R167, R168, R169: the phase after a test of `remaining` for zero. -/
def payloadOrChecksum (remaining : Half) : Phase := if remaining = 0 then .checksum else .payload

/-- R168, R169: `append(P.payload, b)`, the decrement, and the test of the decremented value. -/
def ParserState.takePayload (p : ParserState) (b : Byte) : ParserState :=
  { p with payload := p.payload ++ [b], remaining := p.remaining - 1, phase := payloadOrChecksum (p.remaining - 1) }

/-- R168, R169: a payload byte is taken on the rules' entry condition `remaining >= 1`, into a free location of the buffer (R51). -/
def State.payloadStep (s : State) (p : ParserState) : Host.Outcome State Fault Refusal :=
  if s.curParser.remaining = 0 then .refused .payloadComplete
  else if Config.pbufCap ≤ s.curParser.payload.length then .refused .payloadOverCapacity
  else .next (s.advance p)

/-- R170, R172: the completed Frame, from the field values before the reset. -/
def ParserState.assembled (p : ParserState) : Frame :=
  { command := p.cmd, direction := p.dir, payload := p.payload }

/-! ### Synchronisation and header -/

/-- R153 `AS.SYNC`. -/
def execAsSync (s : State) : Host.Outcome State Fault Refusal :=
  whenSelected (s.controlIs .s0) (s.advance { s.curParser with phase := .versionTag })

/-- R152 `AS.SKIP`: no state change. -/
def execAsSkip (b : Byte) (s : State) : Host.Outcome State Fault Refusal :=
  whenSelected (s.controlIs .s0 && decide (b ≠ syncByte)) (s.advance s.curParser)

/-- R154 `VT.V1`. -/
def execVtV1 (s : State) : Host.Outcome State Fault Refusal :=
  whenSelected (s.controlIs .s1) (s.advance { s.curParser with rev := .v1, phase := .direction })

/-- R155 `VT.V2`. -/
def execVtV2 (s : State) : Host.Outcome State Fault Refusal :=
  whenSelected (s.controlIs .s1) (s.advance { s.curParser with rev := .v2, phase := .direction })

/-- R156 `VT.BAD`: raises `InvalidHeader`. -/
def execVtBad (b : Byte) (s : State) : Host.Outcome State Fault Refusal :=
  whenSelected (s.controlIs .s1 && decide (b ≠ tagV1) && decide (b ≠ tagV2)) (s.raiseParse .invalidHeader)

/-- S2 or S3, where the direction rows apply. -/
def State.inDirection (s : State) : Bool := s.controlIs .s2 || s.controlIs .s3

/-- R157 `DIR.TO`. -/
def execDirTo (s : State) : Host.Outcome State Fault Refusal :=
  whenSelected s.inDirection (s.advance (s.curParser.takeDirection .toController))

/-- R158 `DIR.FROM`. -/
def execDirFrom (s : State) : Host.Outcome State Fault Refusal :=
  whenSelected s.inDirection (s.advance (s.curParser.takeDirection .fromController))

/-- R159 `DIR.UNS`. -/
def execDirUns (s : State) : Host.Outcome State Fault Refusal :=
  whenSelected s.inDirection (s.advance (s.curParser.takeDirection .unsupported))

/-- R160 `DIR.BAD`: raises `InvalidDirection`. -/
def execDirBad (b : Byte) (s : State) : Host.Outcome State Fault Refusal :=
  whenSelected (s.inDirection && (dirOf b).isNone) (s.raiseParse .invalidDirection)

/-! ### V1 body -/

/-- R161 `V1.LEN`. -/
def execV1Len (n : Byte) (s : State) : Host.Outcome State Fault Refusal :=
  whenSelected (s.controlIs .s4)
    (s.advance { s.curParser with remaining := zext16 n, xorAcc := xorFold s.curParser.xorAcc n, phase := .command })

/-- R162 `V1.CMD`. -/
def execV1Cmd (c : Byte) (s : State) : Host.Outcome State Fault Refusal :=
  whenSelected (s.controlIs .s5)
    (s.advance { s.curParser with
      cmd := zext16 c, xorAcc := xorFold s.curParser.xorAcc c, phase := payloadOrChecksum s.curParser.remaining })

/-- R168 `V1.PAY`. -/
def execV1Pay (d : Byte) (s : State) : Host.Outcome State Fault Refusal :=
  if s.controlIs .s6 then
    s.payloadStep { s.curParser.takePayload d with xorAcc := xorFold s.curParser.xorAcc d }
  else .refused .rowNotSelected

/-- R170 `V1.CK.OK`. -/
def execV1CkOk (k : Byte) (s : State) : Host.Outcome State Fault Refusal :=
  whenSelected (s.controlIs .s7 && decide (k = s.curParser.xorAcc)) (s.complete s.curParser.assembled)

/-- R171 `V1.CK.BAD`: raises `ChecksumMismatch`. -/
def execV1CkBad (k : Byte) (s : State) : Host.Outcome State Fault Refusal :=
  whenSelected (s.controlIs .s7 && decide (k ≠ s.curParser.xorAcc))
    (s.raiseParse (.checksumMismatch k s.curParser.xorAcc))

/-! ### V2 body -/

/-- R163 `V2.FLAG`: any value, folded and not stored. -/
def execV2Flag (f : Byte) (s : State) : Host.Outcome State Fault Refusal :=
  whenSelected (s.controlIs .s8)
    (s.advance { s.curParser with crcAcc := crcFold s.curParser.crcAcc f, phase := .command, idx := false })

/-- R164 `V2.CMD.LO`. -/
def execV2CmdLo (c : Byte) (s : State) : Host.Outcome State Fault Refusal :=
  whenSelected (s.controlIs .s9)
    (s.advance { s.curParser with cmd := zext16 c, crcAcc := crcFold s.curParser.crcAcc c, idx := true })

/-- R165 `V2.CMD.HI`. -/
def execV2CmdHi (c : Byte) (s : State) : Host.Outcome State Fault Refusal :=
  whenSelected (s.controlIs .s10)
    (s.advance { s.curParser with
      cmd := joinBytes c (lowByte s.curParser.cmd), crcAcc := crcFold s.curParser.crcAcc c, idx := false, phase := .length })

/-- R166 `V2.LEN.LO`. -/
def execV2LenLo (n : Byte) (s : State) : Host.Outcome State Fault Refusal :=
  whenSelected (s.controlIs .s11)
    (s.advance { s.curParser with remaining := zext16 n, crcAcc := crcFold s.curParser.crcAcc n, idx := true })

/-- R167: the length announced by the high byte and the low byte already received. -/
def ParserState.announced (p : ParserState) (n : Byte) : Half := joinBytes n (lowByte p.remaining)

/-- R167 `V2.LEN.HI`; refused over a `PBUF_CAP` below 65535 (decision D19), which the default never is. -/
def execV2LenHi (n : Byte) (s : State) : Host.Outcome State Fault Refusal :=
  if s.controlIs .s12 && decide (Config.pbufCap < (s.curParser.announced n).toNat) then .refused .payloadOverCapacity
  else
    whenSelected (s.controlIs .s12)
      (s.advance { s.curParser with
        remaining := s.curParser.announced n, crcAcc := crcFold s.curParser.crcAcc n, idx := false,
        phase := payloadOrChecksum (s.curParser.announced n) })

/-- R169 `V2.PAY`: each byte is folded on arrival (decision D8). -/
def execV2Pay (d : Byte) (s : State) : Host.Outcome State Fault Refusal :=
  if s.controlIs .s13 then
    s.payloadStep { s.curParser.takePayload d with crcAcc := crcFold s.curParser.crcAcc d }
  else .refused .rowNotSelected

/-- R172 `V2.CK.OK`. -/
def execV2CkOk (k : Byte) (s : State) : Host.Outcome State Fault Refusal :=
  whenSelected (s.controlIs .s14 && decide (k = crcFinal s.curParser.crcAcc)) (s.complete s.curParser.assembled)

/-- R173 `V2.CK.BAD`: raises `ChecksumMismatch`. -/
def execV2CkBad (k : Byte) (s : State) : Host.Outcome State Fault Refusal :=
  whenSelected (s.controlIs .s14 && decide (k ≠ crcFinal s.curParser.crcAcc))
    (s.raiseParse (.checksumMismatch k (crcFinal s.curParser.crcAcc)))

/-! ### The two operations of the unit -/

/-- R151 `P.RESET`: `P <- INIT`; no result. -/
def execPReset (s : State) : Host.Outcome State Fault Refusal :=
  .next (s.setParser s.cur ParserState.init)

/-- The direction rows of R81, for S2 and S3. -/
def feedDirection (b : Byte) (s : State) : Host.Outcome State Fault Refusal :=
  match dirOf b with
  | some .toController => execDirTo s
  | some .fromController => execDirFrom s
  | some .unsupported => execDirUns s
  | none => execDirBad b s

/-- R150 `P.FEED(b)`: the one rule of R152 to R173 that R81's map gives the control state and the byte; refused in a control state
outside the fifteen (R175). -/
def execPFeed (b : Byte) (s : State) : Host.Outcome State Fault Refusal :=
  match s.curParser.stateId with
  | none => .refused .unreachableControl
  | some .s0 => if b = syncByte then execAsSync s else execAsSkip b s
  | some .s1 => if b = tagV1 then execVtV1 s else if b = tagV2 then execVtV2 s else execVtBad b s
  | some .s2 => feedDirection b s
  | some .s3 => feedDirection b s
  | some .s4 => execV1Len b s
  | some .s5 => execV1Cmd b s
  | some .s6 => execV1Pay b s
  | some .s7 => if b = s.curParser.xorAcc then execV1CkOk b s else execV1CkBad b s
  | some .s8 => execV2Flag b s
  | some .s9 => execV2CmdLo b s
  | some .s10 => execV2CmdHi b s
  | some .s11 => execV2LenLo b s
  | some .s12 => execV2LenHi b s
  | some .s13 => execV2Pay b s
  | some .s14 => if b = crcFinal s.curParser.crcAcc then execV2CkOk b s else execV2CkBad b s

end Sys2Proof.Machine
end

