-- ==== Sys2Proof/Machine/Frames.lean ====
section
/-! DEFINITION. The two frame rows (R72, R73): a frame on the wire is its bytes fed to the parser in order, R92's `P.FEEDS`. -/

namespace Sys2Proof.Machine

/-- R92 `P.FEEDS`: the bytes fed one at a time, each result delivered; a refused byte ends it. -/
def feedAll : List Byte → State → Host.Outcome State Fault Refusal
  | [], s => .next s
  | b :: bs, s =>
    match execPFeed b s with
    | .next t => feedAll bs t
    | .fault r => .fault r
    | .refused r => .refused r

/-- `FRAME.V1` (R72): the frame's bytes fed in increasing offset order (R54). -/
def execFrameV1 (d c : Byte) (p : List Byte) (k : Byte) (s : State) : Host.Outcome State Fault Refusal :=
  feedAll (frameBytesV1 d c p k) s

/-- `FRAME.V2` (R73): the frame's bytes fed in increasing offset order (R54). -/
def execFrameV2 (d f : Byte) (c : Half) (p : List Byte) (k : Byte) (s : State) : Host.Outcome State Fault Refusal :=
  feedAll (frameBytesV2 d f c p k) s

end Sys2Proof.Machine
end

