-- ==== Sys2Proof/Machine/Serializer.lean ====
section
/-! DEFINITION. Frame size accounting and the frame serializer (42_serializer.md). -/

namespace Sys2Proof.Machine

/-- R131: the size of a Frame's wire form, never truncated. -/
def wireSize (f : Frame) : Revision → Nat
  | .v1 => Config.overheadV1 + f.payload.length
  | .v2 => Config.overheadV2 + f.payload.length

/-- R134, R58: the bytes `SER.V1` writes. The checksum is "seeded with `lenByte XOR cmdByteLow8`" and folded over the payload. -/
def serBytesV1 (f : Frame) : List Byte :=
  let n := lenByte f.payload.length
  let c := lowByte f.command
  [syncByte, tagV1, dirByte f.direction, n, c] ++ f.payload ++ [xorBulk (n ^^^ c) f.payload]

/-- R135, R59: the bytes of a V2 frame from the flag through the payload, `dst[3 .. 7+n]`. -/
def serBodyV2 (f : Frame) : List Byte :=
  let n := lenHalf f.payload.length
  [0x00, lowByte f.command, highByte f.command, lowByte n, highByte n] ++ f.payload

/-- R135, R59: the bytes `SER.V2` writes; the checksum is a fresh CRC-8 over the body. -/
def serBytesV2 (f : Frame) : List Byte :=
  [syncByte, tagV2, dirByte f.direction] ++ serBodyV2 f ++ [crcSum (serBodyV2 f)]

/-- R52, R133: the compare of `dst_len` with the precomputed size, then the bytes at index 0 on, then `Ok(bs)`. -/
def State.serialize (s : State) (size dstLen : Nat) (bs : List Byte) : State :=
  if dstLen = size then ({ s with dst := s.dst.writeAll 0 bs } : State).deliver (.ser (.ok bs)) else s.raiseSize

/-- R131 `FRAME.SIZE(f, rev)`. -/
def execFrameSize (f : Frame) (rev : Revision) (s : State) : Host.Outcome State Fault Refusal :=
  .next (s.deliver (.size (wireSize f rev)))

/-- R134 `SER.V1(f, dst_len)`: refused over 255 payload bytes whatever `dst_len` is (R132, R209), and under `V1_CMD_STRICT` over command
255 (decision D13); then R133. -/
def execSerV1 (f : Frame) (dstLen : Nat) (s : State) : Host.Outcome State Fault Refusal :=
  if Config.payloadMaxV1 < f.payload.length then .refused .payloadOverV1Limit
  else if Config.v1CmdStrict && decide (255 < f.command.toNat) then .refused .commandOverV1Field
  else .next (s.serialize (wireSize f .v1) dstLen (serBytesV1 f))

/-- R135 `SER.V2(f, dst_len)`; over 65535 payload bytes `f` is no Frame (R34, R132). -/
def execSerV2 (f : Frame) (dstLen : Nat) (s : State) : Host.Outcome State Fault Refusal :=
  if Config.payloadMaxV2 < f.payload.length then .refused .notAFrame
  else .next (s.serialize (wireSize f .v2) dstLen (serBytesV2 f))

end Sys2Proof.Machine
end

