-- ==== Sys2Proof/Machine/Xor.lean ====
section
/-! DEFINITION. The stand-alone XOR accumulator (40_checksum_xor.md). -/

namespace Sys2Proof.Machine

/-- R101 `XOR.RESET`: `acc <- 0x00`. -/
def execXorReset (s : State) : Host.Outcome State Fault Refusal :=
  .next (s.setXorReg s.cur xorInit)

/-- R102 `XOR.UPDATE(b)`: `acc <- acc ^ b`. -/
def execXorUpdate (b : Byte) (s : State) : Host.Outcome State Fault Refusal :=
  .next (s.setXorReg s.cur (xorFold (s.xorReg s.cur) b))

/-- R103 `XOR.UPDATE_BULK(bs)`: the left fold of R102 over `bs`. -/
def execXorUpdateBulk (bs : List Byte) (s : State) : Host.Outcome State Fault Refusal :=
  .next (s.setXorReg s.cur (xorBulk (s.xorReg s.cur) bs))

/-- R104 `XOR.VALUE`: `return acc`; the register is not changed. -/
def execXorValue (s : State) : Host.Outcome State Fault Refusal :=
  .next (s.deliver (.xorValue (s.xorReg s.cur)))

end Sys2Proof.Machine
end

