-- ==== Sys2Proof/Machine/Dispatch.lean ====
section
/-! DEFINITION. One arm per row of spec/opcode_table.json. -/

namespace Sys2Proof.Machine

def exec (i : Instr) (s : State) : Host.Outcome State Fault Refusal :=
  match i with
  -- parser-byte rows
  | .asSync => Sys2Proof.Machine.execAsSync s
  | .asSkip b => Sys2Proof.Machine.execAsSkip b s
  | .vtV1 => Sys2Proof.Machine.execVtV1 s
  | .vtV2 => Sys2Proof.Machine.execVtV2 s
  | .vtBad b => Sys2Proof.Machine.execVtBad b s
  | .dirTo => Sys2Proof.Machine.execDirTo s
  | .dirFrom => Sys2Proof.Machine.execDirFrom s
  | .dirUns => Sys2Proof.Machine.execDirUns s
  | .dirBad b => Sys2Proof.Machine.execDirBad b s
  | .v1Len n => Sys2Proof.Machine.execV1Len n s
  | .v1Cmd c => Sys2Proof.Machine.execV1Cmd c s
  | .v1Pay d => Sys2Proof.Machine.execV1Pay d s
  | .v1CkOk k => Sys2Proof.Machine.execV1CkOk k s
  | .v1CkBad k => Sys2Proof.Machine.execV1CkBad k s
  | .v2Flag f => Sys2Proof.Machine.execV2Flag f s
  | .v2CmdLo c => Sys2Proof.Machine.execV2CmdLo c s
  | .v2CmdHi c => Sys2Proof.Machine.execV2CmdHi c s
  | .v2LenLo n => Sys2Proof.Machine.execV2LenLo n s
  | .v2LenHi n => Sys2Proof.Machine.execV2LenHi n s
  | .v2Pay d => Sys2Proof.Machine.execV2Pay d s
  | .v2CkOk k => Sys2Proof.Machine.execV2CkOk k s
  | .v2CkBad k => Sys2Proof.Machine.execV2CkBad k s
  -- frame rows
  | .frameV1 d c p k => Sys2Proof.Machine.execFrameV1 d c p k s
  | .frameV2 d f c p k => Sys2Proof.Machine.execFrameV2 d f c p k s
  -- operation rows
  | .xorReset => Sys2Proof.Machine.execXorReset s
  | .xorUpdate b => Sys2Proof.Machine.execXorUpdate b s
  | .xorUpdateBulk bs => Sys2Proof.Machine.execXorUpdateBulk bs s
  | .xorValue => Sys2Proof.Machine.execXorValue s
  | .crc8Reset => Sys2Proof.Machine.execCrc8Reset s
  | .crc8Update b => Sys2Proof.Machine.execCrc8Update b s
  | .crc8UpdateBulk bs => Sys2Proof.Machine.execCrc8UpdateBulk bs s
  | .crc8Finalize => Sys2Proof.Machine.execCrc8Finalize s
  | .frameSize f rev => Sys2Proof.Machine.execFrameSize f rev s
  | .serV1 f n => Sys2Proof.Machine.execSerV1 f n s
  | .serV2 f n => Sys2Proof.Machine.execSerV2 f n s
  | .pReset => Sys2Proof.Machine.execPReset s
  | .pFeed b => Sys2Proof.Machine.execPFeed b s

end Sys2Proof.Machine
end

