-- ==== Sys2Proof/Machine/Fetch.lean ====
section
/-! DEFINITION. Taking the next request. The block fetches no instructions (R9, R63): the host presents bytes and operations, and each
is decoded once, by the control state current at that moment. -/

namespace Sys2Proof.Machine

/-- R81: what decoding a byte for a parser depends on; none in a control state outside the fifteen. -/
def ParserState.context (p : ParserState) : Option Context :=
  p.stateId.map fun i => { state := i, xorAcc := p.xorAcc, crcFinal := crcFinal p.crcAcc }

/-- What a step does next. -/
inductive Fetched where
  /-- Nothing is presented: the block is inert (R223, R247). -/
  | idle
  /-- An instruction, and the state in which it runs: its request taken, its instance addressed. -/
  | run (i : Instr) (s : State)
  /-- A burst that does not begin with a whole frame: replaced by the `P.FEED`s it abbreviates (R92). -/
  | expand (s : State)
  /-- No instruction of the table. -/
  | reject (r : Refusal)

/-- A request is taken: its line leaves the trace and its instance is addressed. -/
def State.take (s : State) (k : Nat) (later : List Line) : State := { s with pending := later, cur := k }

/-- The lines still to be taken after a frame of a burst: the rest of the burst, if any, stays first. -/
def restOfBurst (k : Nat) (rest : List Byte) (later : List Line) : List Line :=
  match rest with
  | [] => later
  | b :: bs => ⟨k, .burst (b :: bs)⟩ :: later

/-- What a rejected request comes to. -/
def onReject (r : Reject) (s : State) (k : Nat) (q : Request) (later : List Line) : Fetched :=
  match r, q with
  | .noFrameRow, .burst bs => .expand (s.take k (feedLines k bs ++ later))
  | .noFrameRow, _ => .reject .notAnOperation
  | .unreachableControl, _ => .reject .unreachableControl
  | .notAnOperation, _ => .reject .notAnOperation
  | .operandsDoNotFit, _ => .reject .notAFrame

/-- The next request, decoded for the instance its line names. -/
def fetch (s : State) : Fetched :=
  match s.pending with
  | [] => .idle
  | l :: later =>
    match decode (s.parser l.inst).context l.request with
    | .ok (i, rest) => .run i (s.take l.inst (restOfBurst l.inst rest later))
    | .error r => onReject r s l.inst l.request later

/-- The addressed parser with the control state a bare table byte is read in (log entry 8); unchanged where its own control state
already decodes the byte so. -/
def ParserState.forTableByte (p : ParserState) (b : Byte) : ParserState :=
  if (p.context.bind fun c => decodeByte c b) = decodeTableWord 8 b.toNat then p
  else
    let c := controlOf (tableState b)
    { p with phase := c.phase, rev := c.rev, idx := c.idx }

/-- The request that stands for a table word. -/
def tableRequest (nbits w : Nat) : Request :=
  if nbits = 8 then .byte (BitVec.ofNat 8 w) else .burst (tableFrame nbits w)

/-- The state in which a table word is next to be taken. -/
def State.withTableWord (s : State) (nbits w : Nat) : State :=
  let t : State :=
    if nbits = 8 then s.setParser s.cur (s.curParser.forTableByte (BitVec.ofNat 8 w)) else s
  { t with pending := ⟨s.cur, tableRequest nbits w⟩ :: s.pending }

end Sys2Proof.Machine
end

