-- ==== Sys2Proof/Machine/Step.lean ====
section
/-! DEFINITION. One step of the machine: the next request of the host is taken, decoded and run (R56, R61). -/

namespace Sys2Proof.Machine

/-- One operation, atomic (R56). With nothing presented nothing happens: "no transition taken without an input byte" (R176). -/
def step (s : State) : Host.Outcome State Fault Refusal :=
  match fetch s with
  | .idle => .next s
  | .run i t => exec i t
  | .expand t => .next t
  | .reject r => .refused r

/-- The state with the instruction of a table word next to be taken. -/
def State.withFetchWord (s : State) (nbits w : Nat) : State := s.withTableWord nbits w

end Sys2Proof.Machine
end

