-- ==== Sys2Proof/Safety.lean ====
section
/-! DEFINITION. The terms claims use: what an operation leaves unchanged, the invariants of 10_state.md R32, and what a safe run is. -/

namespace Sys2Proof.Machine

/-! ### Frames: what stays as it was -/

/-- Every parser instance but `n` is unchanged. -/
def ParsersSameBut (n : Nat) (s t : State) : Prop := ∀ k, k ≠ n → t.parser k = s.parser k

/-- Every stand-alone XOR accumulator but `n` is unchanged. -/
def XorRegsSameBut (n : Nat) (s t : State) : Prop := ∀ k, k ≠ n → t.xorReg k = s.xorReg k

/-- Every stand-alone CRC-8 accumulator but `n` is unchanged. -/
def CrcRegsSameBut (n : Nat) (s t : State) : Prop := ∀ k, k ≠ n → t.crcReg k = s.crcReg k

/-- Every parser instance is unchanged. -/
def ParsersSame (s t : State) : Prop := ∀ k, t.parser k = s.parser k

/-- Every stand-alone XOR accumulator is unchanged. -/
def XorRegsSame (s t : State) : Prop := ∀ k, t.xorReg k = s.xorReg k

/-- Every stand-alone CRC-8 accumulator is unchanged. -/
def CrcRegsSame (s t : State) : Prop := ∀ k, t.crcReg k = s.crcReg k

/-- Every byte of the destination memory reads as before. -/
def DstSame (s t : State) : Prop := ∀ a, t.dst.read a = s.dst.read a

/-- The trace still to be taken and the addressed instance are unchanged. -/
def TraceSame (s t : State) : Prop := t.cur = s.cur ∧ t.pending = s.pending

/-- R46, rows `P.RESET` and `P.FEED`: nothing but the addressed parser (and what is delivered) changes. -/
def OnlyParser (s t : State) : Prop :=
  ParsersSameBut s.cur s t ∧ XorRegsSame s t ∧ CrcRegsSame s t ∧ DstSame s t ∧ TraceSame s t

/-- R46, row `XOR.*`: nothing but the addressed stand-alone XOR accumulator (and what is delivered) changes. -/
def OnlyXorReg (s t : State) : Prop :=
  ParsersSame s t ∧ XorRegsSameBut s.cur s t ∧ CrcRegsSame s t ∧ DstSame s t ∧ TraceSame s t

/-- R46, row `CRC8.*`: nothing but the addressed stand-alone CRC-8 accumulator (and what is delivered) changes. -/
def OnlyCrcReg (s t : State) : Prop :=
  ParsersSame s t ∧ XorRegsSame s t ∧ CrcRegsSameBut s.cur s t ∧ DstSame s t ∧ TraceSame s t

/-- R46, rows `FRAME.SIZE` and `SER.*`: no register changes. -/
def RegistersSame (s t : State) : Prop :=
  ParsersSame s t ∧ XorRegsSame s t ∧ CrcRegsSame s t ∧ TraceSame s t

/-- The deliveries of a list of `P.FEED` results to one instance. -/
def feedDeliveries (k : Nat) (rs : List FeedResult) : List Delivery := rs.map fun r => ⟨k, .feed r⟩

/-- The results an instance has delivered, in order (R45: the only observation of a parser). -/
def State.resultsOf (s : State) (k : Nat) : List Result :=
  (s.delivered.filter fun d => decide (d.inst = k)).map fun d => d.result

/-- `i` runs in `s`: it answers a next state in which the addressed parser is `p`, exactly the `P.FEED` results `rs` have been
delivered in order, and nothing else has changed. -/
def RunsTo (i : Instr) (s : State) (p : ParserState) (rs : List FeedResult) : Prop :=
  ∃ t, exec i s = .next t ∧ t.parser s.cur = p ∧ t.delivered = s.delivered ++ feedDeliveries s.cur rs ∧ OnlyParser s t

/-- `i` runs in `s` as a `P.FEED` with the one result `r`. -/
def FeedsTo (i : Instr) (s : State) (p : ParserState) (r : FeedResult) : Prop := RunsTo i s p [r]

/-- The bytes `w` run in `s` as R92's `P.FEEDS`: the addressed parser ends in `p`, exactly the results `rs` have been delivered in
order, and nothing else has changed. -/
def BytesTo (w : List Byte) (s : State) (p : ParserState) (rs : List FeedResult) : Prop :=
  ∃ t, feedAll w s = .next t ∧ t.parser s.cur = p ∧ t.delivered = s.delivered ++ feedDeliveries s.cur rs ∧ OnlyParser s t

/-! ### The invariants of R32 -/

/-- R32, one row per control state: the fields a row does not name hold their reset values, and the accumulators hold the folds of the
bytes received so far. A control state outside the fifteen has no row. -/
def ParserInv (p : ParserState) : Prop :=
  match p.stateId with
  | none => False
  | some .s0 => p = ParserState.init
  | some .s1 => p = { ParserState.init with phase := .versionTag }
  | some .s2 => p = { ParserState.init with phase := .direction, rev := .v1 }
  | some .s3 => p = { ParserState.init with phase := .direction, rev := .v2 }
  | some .s4 => p = { ParserState.init with phase := .length, rev := .v1, dir := p.dir }
  | some .s5 =>
    ∃ L : Byte, p = { ParserState.init with
      phase := .command, rev := .v1, dir := p.dir, remaining := zext16 L, xorAcc := xorSum [L] }
  | some .s6 =>
    ∃ L C : Byte, 1 ≤ p.remaining.toNat ∧ p.payload.length + p.remaining.toNat = L.toNat ∧
      p = { ParserState.init with
        phase := .payload, rev := .v1, dir := p.dir, cmd := zext16 C, remaining := p.remaining, payload := p.payload,
        xorAcc := xorSum (L :: C :: p.payload) }
  | some .s7 =>
    ∃ L C : Byte, p.payload.length = L.toNat ∧
      p = { ParserState.init with
        phase := .checksum, rev := .v1, dir := p.dir, cmd := zext16 C, payload := p.payload,
        xorAcc := xorSum (L :: C :: p.payload) }
  | some .s8 => p = { ParserState.init with phase := .flag, rev := .v2, dir := p.dir }
  | some .s9 =>
    ∃ F : Byte, p = { ParserState.init with
      phase := .command, rev := .v2, dir := p.dir, crcAcc := crcBulk crcInit [F] }
  | some .s10 =>
    ∃ F lo : Byte, p = { ParserState.init with
      phase := .command, rev := .v2, idx := true, dir := p.dir, cmd := zext16 lo, crcAcc := crcBulk crcInit [F, lo] }
  | some .s11 =>
    ∃ F : Byte, p = { ParserState.init with
      phase := .length, rev := .v2, dir := p.dir, cmd := p.cmd,
      crcAcc := crcBulk crcInit [F, lowByte p.cmd, highByte p.cmd] }
  | some .s12 =>
    ∃ F lo : Byte, p = { ParserState.init with
      phase := .length, rev := .v2, idx := true, dir := p.dir, cmd := p.cmd, remaining := zext16 lo,
      crcAcc := crcBulk crcInit [F, lowByte p.cmd, highByte p.cmd, lo] }
  | some .s13 =>
    ∃ (F : Byte) (L : Half), 1 ≤ p.remaining.toNat ∧ p.payload.length + p.remaining.toNat = L.toNat ∧
      p = { ParserState.init with
        phase := .payload, rev := .v2, dir := p.dir, cmd := p.cmd, remaining := p.remaining, payload := p.payload,
        crcAcc := crcBulk crcInit
          (F :: lowByte p.cmd :: highByte p.cmd :: lowByte L :: highByte L :: p.payload) }
  | some .s14 =>
    ∃ (F : Byte) (L : Half), p.payload.length = L.toNat ∧
      p = { ParserState.init with
        phase := .checksum, rev := .v2, dir := p.dir, cmd := p.cmd, payload := p.payload,
        crcAcc := crcBulk crcInit
          (F :: lowByte p.cmd :: highByte p.cmd :: lowByte L :: highByte L :: p.payload) }

/-- What every delivered result satisfies: a Frame is a Frame (R34), the two bytes of a mismatch differ (R203), serialized bytes are a
well-formed frame (R137), and a size is in the range of R7. -/
def ResultSound : Result → Prop
  | .feed .noFrame => True
  | .feed (.frame f) => f.fits = true
  | .feed (.err .invalidHeader) => True
  | .feed (.err .invalidDirection) => True
  | .feed (.err (.checksumMismatch e c)) => e ≠ c
  | .ser (.ok bs) => isV1Frame bs = true ∨ isV2Frame bs = true
  | .ser .sizeMismatch => True
  | .size n => 6 ≤ n ∧ n ≤ 65544
  | .xorValue _ => True
  | .crcValue _ => True

/-- The invariant of the machine. -/
structure Inv (s : State) : Prop where
  parser    : ∀ k, ParserInv (s.parser k)
  parsers   : bankWf ParserState.init s.parsers = true
  xorAccs   : bankWf xorInit s.xorAccs = true
  crcAccs   : bankWf crcInit s.crcAccs = true
  dst       : s.dst.wf = true
  delivered : ∀ d ∈ s.delivered, ResultSound d.result

/-! ### Safe runs -/

/-- What a host that keeps R240's duties presents: stream bytes without restriction, and operations of R10 whose operands fit, `SER.V1`
with at most 255 payload bytes (R132). -/
def Request.acceptable : Request → Bool
  | .byte _ => true
  | .burst _ => true
  | .op (.serV1 f n) => (Instr.serV1 f n).fits && decide (f.payload.length ≤ Config.payloadMaxV1)
  | .op i => i.isOperation && i.fits

/-- The host keeps its duties in all it has presented. -/
def HostKeepsDuties (s : State) : Prop := ∀ l ∈ s.pending, Request.acceptable l.request = true

/-- A run of `n` steps that neither faults nor is refused. -/
def SafeRun (n : Nat) (s : State) : Prop := ∃ t, Host.Core.run Sys2Proof.core n s = .next t

end Sys2Proof.Machine
end

