-- ==== Sys2Proof/Certificates/Slice0/Obligations.lean ====
section
/-! DEFINITION. The statements for the provers. Each formalises rules of spec/; the quoted sentences stand in OBLIGATIONS.json. -/

open Sys2Proof Sys2Proof.Machine

/-! ### Reset -/

/-- R40, R230, R231 (the spec's decision D4; log entry 5): right after reset every parser instance holds the reset table's values and
every stand-alone accumulator holds 0; nothing has been written, presented or delivered (the last four clauses are the model's own). -/
def Obligations.ResetHoldsEveryRegisterAtItsResetValue : Prop :=
  (∀ k, (State.reset.parser k).phase = .awaitSync ∧ (State.reset.parser k).rev = .noRev ∧
    (State.reset.parser k).idx = false ∧ (State.reset.parser k).dir = .toController ∧
    (State.reset.parser k).cmd = 0x0000 ∧ (State.reset.parser k).remaining = 0x0000 ∧
    (State.reset.parser k).payload = [] ∧ (State.reset.parser k).xorAcc = 0x00 ∧ (State.reset.parser k).crcAcc = 0x00) ∧
  (∀ k, State.reset.xorReg k = 0x00) ∧ (∀ k, State.reset.crcReg k = 0x00) ∧
  (∀ a, State.reset.dst.read a = none) ∧ State.reset.pending = [] ∧ State.reset.delivered = [] ∧ State.reset.cur = 0

/-- R151 (decision D4): in every state `P.RESET` writes `INIT` to the addressed parser, delivers nothing and changes nothing else. -/
def Obligations.ParserResetWritesInit : Prop :=
  ∀ s : State, RunsTo .pReset s ParserState.init []

/-! ### The stand-alone accumulators -/

/-- R101, R112 (decision D2): a reset writes 0 to the addressed accumulator, delivers nothing and changes nothing else. -/
def Obligations.AccumulatorResetsWriteZero : Prop :=
  ∀ s : State,
    (∃ t, exec .xorReset s = .next t ∧ t.xorReg s.cur = 0x00 ∧ t.delivered = s.delivered ∧ OnlyXorReg s t) ∧
    (∃ t, exec .crc8Reset s = .next t ∧ t.crcReg s.cur = 0x00 ∧ t.delivered = s.delivered ∧ OnlyCrcReg s t)

/-- R102: `acc <- acc ^ b`, no result, nothing else changed; with the rule's four corner cases. -/
def Obligations.XorUpdateFoldsOneByte : Prop :=
  ∀ (b : Byte) (s : State), ∃ t, exec (.xorUpdate b) s = .next t ∧
    t.xorReg s.cur = s.xorReg s.cur ^^^ b ∧ t.delivered = s.delivered ∧ OnlyXorReg s t ∧
    (b = 0x00 → t.xorReg s.cur = s.xorReg s.cur) ∧ (b = s.xorReg s.cur → t.xorReg s.cur = 0x00) ∧
    (b = 0xFF → t.xorReg s.cur = ~~~ s.xorReg s.cur) ∧
    (∃ u, exec (.xorUpdate b) t = .next u ∧ u.xorReg s.cur = s.xorReg s.cur)

/-- R103: the left fold over the bytes; the empty sequence leaves the register; any permutation, and any split into a bulk, a single
update and a bulk, gives the same register. -/
def Obligations.XorUpdateBulkIsTheFold : Prop :=
  ∀ (bs : List Byte) (s : State), ∃ t, exec (.xorUpdateBulk bs) s = .next t ∧
    t.xorReg s.cur = bs.foldl (fun a b => a ^^^ b) (s.xorReg s.cur) ∧ t.delivered = s.delivered ∧ OnlyXorReg s t ∧
    (bs = [] → t.xorReg s.cur = s.xorReg s.cur) ∧
    (∀ cs, cs.Perm bs → ∃ u, exec (.xorUpdateBulk cs) s = .next u ∧ u.xorReg s.cur = t.xorReg s.cur) ∧
    (∀ xs b ys, bs = xs ++ b :: ys → ∃ u v w, exec (.xorUpdateBulk xs) s = .next u ∧ exec (.xorUpdate b) u = .next v ∧
      exec (.xorUpdateBulk ys) v = .next w ∧ w.xorReg s.cur = t.xorReg s.cur)

/-- R104: the register is returned and not changed, so reading twice returns the same value. -/
def Obligations.XorValueReturnsTheRegister : Prop :=
  ∀ s : State, ∃ t, exec .xorValue s = .next t ∧ t.xorReg s.cur = s.xorReg s.cur ∧
    t.delivered = s.delivered ++ [⟨s.cur, .xorValue (s.xorReg s.cur)⟩] ∧ OnlyXorReg s t ∧
    ∃ u, exec .xorValue t = .next u ∧ u.delivered = t.delivered ++ [⟨s.cur, .xorValue (s.xorReg s.cur)⟩]

/-- R113 (the parameters of R111 are the spec's decision D6; log entry 1): eight shifts of `crc ^ b`, each shifting left and, where bit 7
was set, folding the polynomial in; equivalently the table's entry at `crc ^ b`; `b = crc` always gives 0. -/
def Obligations.Crc8UpdateShiftsEightTimes : Prop :=
  ∀ (b : Byte) (s : State), ∃ t, exec (.crc8Update b) s = .next t ∧
    t.crcReg s.cur =
      (List.range 8).foldl (fun c _ => if c.getLsbD 7 then (c <<< 1) ^^^ 0xD5 else c <<< 1) (s.crcReg s.cur ^^^ b) ∧
    some (t.crcReg s.cur) = crcTable[(s.crcReg s.cur ^^^ b).toNat]? ∧
    (b = s.crcReg s.cur → t.crcReg s.cur = 0x00) ∧ t.delivered = s.delivered ∧ OnlyCrcReg s t

/-- R114: the left fold of the single update, so every split into consecutive bulk and single updates gives the same register. -/
def Obligations.Crc8UpdateBulkIsTheFold : Prop :=
  ∀ (bs : List Byte) (s : State), ∃ t, exec (.crc8UpdateBulk bs) s = .next t ∧
    t.crcReg s.cur = bs.foldl crcFold (s.crcReg s.cur) ∧ t.delivered = s.delivered ∧ OnlyCrcReg s t ∧
    (bs = [] → t.crcReg s.cur = s.crcReg s.cur) ∧
    (∀ xs b ys, bs = xs ++ b :: ys → ∃ u v w, exec (.crc8UpdateBulk xs) s = .next u ∧ exec (.crc8Update b) u = .next v ∧
      exec (.crc8UpdateBulk ys) v = .next w ∧ w.crcReg s.cur = t.crcReg s.cur)

/-- R115 (finalisation is the identity under decision D6; log entry 1): the register is returned and not changed, so finalising and then
updating is well defined. -/
def Obligations.Crc8FinalizeReturnsTheRegister : Prop :=
  ∀ s : State, ∃ t, exec .crc8Finalize s = .next t ∧ t.crcReg s.cur = s.crcReg s.cur ∧
    t.delivered = s.delivered ++ [⟨s.cur, .crcValue (s.crcReg s.cur)⟩] ∧ OnlyCrcReg s t ∧
    ∀ b, ∃ u, exec (.crc8Update b) t = .next u ∧ u.crcReg s.cur = crcFold (s.crcReg s.cur) b

/-- R105: the laws of `XOR(s)`, with the detection of every single-byte corruption. -/
def Obligations.XorSumLaws : Prop :=
  xorSum [] = 0x00 ∧
  (∀ s b, xorSum (s ++ [b]) = xorSum s ^^^ b) ∧
  (∀ s t, xorSum (s ++ t) = xorSum s ^^^ xorSum t) ∧
  (∀ s t : List Byte, s.Perm t → xorSum s = xorSum t) ∧
  (∀ s, xorSum (s ++ [xorSum s]) = 0x00) ∧
  (∀ s t x d, d ≠ 0x00 → xorSum (s ++ (x ^^^ d) :: t) = xorSum (s ++ x :: t) ^^^ d ∧
    xorSum (s ++ (x ^^^ d) :: t) ≠ xorSum (s ++ x :: t))

/-- R116 (for the parameters of R111, decision D6; log entry 1): continuing, linearity, leading zeros, the message followed by its CRC, and
the detection of every single-byte change (so of every single-bit change). -/
def Obligations.CrcSumLaws : Prop :=
  crcSum [] = 0x00 ∧
  (∀ s t, crcSum (s ++ t) = crcFinal (crcBulk (crcSum s) t)) ∧
  (∀ s t : List Byte, s.length = t.length → crcSum (List.zipWith (fun a b => a ^^^ b) s t) = crcSum s ^^^ crcSum t) ∧
  (∀ s, crcSum (0x00 :: s) = crcSum s) ∧
  (∀ s, crcSum (s ++ [crcSum s]) = 0x00) ∧
  (∀ s t x y, x ≠ y → crcSum (s ++ x :: t) ≠ crcSum (s ++ y :: t))

/-! ### Frame sizes and the serializer -/

/-- R131: `6 + n` and `9 + n`, never truncated, for every Frame and both revisions; nothing else changes. -/
def Obligations.FrameSizeReturnsTheSize : Prop :=
  ∀ (f : Frame) (rev : Revision) (s : State), ∃ t, exec (.frameSize f rev) s = .next t ∧
    t.delivered = s.delivered ++
      [⟨s.cur, .size (match rev with | .v1 => 6 + f.payload.length | .v2 => 9 + f.payload.length)⟩] ∧
    RegistersSame s t ∧ DstSame s t

/-- R134, R58 (truncation of the command is decision D13; log entry 3): with at most 255 payload bytes and the exact length, `SER.V1` returns
the bytes of the layout, writes each at its offset, and leaves every other byte and every register. -/
def Obligations.SerializeV1WritesTheFrame : Prop :=
  ∀ (f : Frame) (s : State), f.payload.length ≤ 255 → ∃ t bs, exec (.serV1 f (6 + f.payload.length)) s = .next t ∧
    bs = [0x24, 0x4D, dirByte f.direction, BitVec.ofNat 8 f.payload.length, f.command.setWidth 8] ++ f.payload ++
      [f.payload.foldl (fun a b => a ^^^ b) (BitVec.ofNat 8 f.payload.length ^^^ f.command.setWidth 8)] ∧
    bs.length = 6 + f.payload.length ∧
    t.delivered = s.delivered ++ [⟨s.cur, .ser (.ok bs)⟩] ∧
    (∀ a, a < bs.length → t.dst.read a = bs[a]?) ∧ (∀ a, bs.length ≤ a → t.dst.read a = s.dst.read a) ∧
    RegistersSame s t

/-- R135, R59: with the exact length, `SER.V2` returns the bytes of the layout with flag 0, writes each at its offset, and leaves every
other byte and every register. -/
def Obligations.SerializeV2WritesTheFrame : Prop :=
  ∀ (f : Frame) (s : State), f.payload.length ≤ 65535 → ∃ t bs n, exec (.serV2 f (9 + f.payload.length)) s = .next t ∧
    n = BitVec.ofNat 16 f.payload.length ∧
    bs = [0x24, 0x58, dirByte f.direction, 0x00, f.command.extractLsb' 0 8, f.command.extractLsb' 8 8,
        n.extractLsb' 0 8, n.extractLsb' 8 8] ++ f.payload ++
      [crcSum ([0x00, f.command.extractLsb' 0 8, f.command.extractLsb' 8 8, n.extractLsb' 0 8, n.extractLsb' 8 8] ++
        f.payload)] ∧
    bs.length = 9 + f.payload.length ∧
    t.delivered = s.delivered ++ [⟨s.cur, .ser (.ok bs)⟩] ∧
    (∀ a, a < bs.length → t.dst.read a = bs[a]?) ∧ (∀ a, bs.length ≤ a → t.dst.read a = s.dst.read a) ∧
    RegistersSame s t

/-- R133, R211 (decision D12): with the operands in range and any other length, both serializers return `SizeMismatch`; no byte of the
destination and no register changes. -/
def Obligations.SerializeWrongLengthWritesNothing : Prop :=
  ∀ (f : Frame) (n : Nat) (s : State),
    (f.payload.length ≤ 255 → n ≠ 6 + f.payload.length → ∃ t, exec (.serV1 f n) s = .next t ∧
      t.delivered = s.delivered ++ [⟨s.cur, .ser .sizeMismatch⟩] ∧ RegistersSame s t ∧ DstSame s t) ∧
    (f.payload.length ≤ 65535 → n ≠ 9 + f.payload.length → ∃ t, exec (.serV2 f n) s = .next t ∧
      t.delivered = s.delivered ++ [⟨s.cur, .ser .sizeMismatch⟩] ∧ RegistersSame s t ∧ DstSame s t)

/-- R132, R209 (decision D10; log entry 15): `SER.V1` with more than 255 payload bytes is refused, whatever the length given; with more than
65535 there is no Frame (R34), and `SER.V2` is refused. -/
def Obligations.SerializeOverLimitIsRefused : Prop :=
  ∀ (f : Frame) (n : Nat) (s : State),
    (255 < f.payload.length → exec (.serV1 f n) s = .refused .payloadOverV1Limit) ∧
    (65535 < f.payload.length → exec (.serV2 f n) s = .refused .notAFrame)

/-- R137: whatever bytes a serializer delivers are a well-formed frame of its revision that denotes the Frame it was given, under V1 with
the command cut to its low 8 bits, under V2 with flag 0. -/
def Obligations.SerializedBytesDenoteTheirFrame : Prop :=
  ∀ (f : Frame) (n : Nat) (s t : State) (bs : List Byte), t.delivered = s.delivered ++ [⟨s.cur, .ser (.ok bs)⟩] →
    (exec (.serV1 f n) s = .next t →
      isV1Frame bs = true ∧ denoteV1 bs = some { f with command := f.command &&& 0xFF }) ∧
    (exec (.serV2 f n) s = .next t → isV2Frame bs = true ∧ denoteV2 bs = some f ∧ bs[3]? = some 0x00)

/-! ### The parser, rule by rule -/

/-- R152, R153: in S0 every byte but the sync byte is skipped with no state change, and the sync byte moves the phase to `VersionTag`. -/
def Obligations.AwaitSyncSkipsNoiseAndTakesSync : Prop :=
  ∀ s : State, s.curParser.stateId = some .s0 →
    (∀ b : Byte, b ≠ 0x24 → FeedsTo (.asSkip b) s s.curParser .noFrame ∧ FeedsTo (.pFeed b) s s.curParser .noFrame) ∧
    FeedsTo .asSync s { s.curParser with phase := .versionTag } .noFrame ∧
    FeedsTo (.pFeed 0x24) s { s.curParser with phase := .versionTag } .noFrame

/-- R154, R155: in S1 the byte `'M'` selects V1 and the byte `'X'` selects V2, and the phase is `Direction`. That `'X'` is 0x58 is PRESUMED
by the spec (R71, decision D7; log entry 2). -/
def Obligations.VersionTagSelectsTheRevision : Prop :=
  ∀ s : State, s.curParser.stateId = some .s1 →
    FeedsTo .vtV1 s { s.curParser with rev := .v1, phase := .direction } .noFrame ∧
    FeedsTo (.pFeed 0x4D) s { s.curParser with rev := .v1, phase := .direction } .noFrame ∧
    FeedsTo .vtV2 s { s.curParser with rev := .v2, phase := .direction } .noFrame ∧
    FeedsTo (.pFeed 0x58) s { s.curParser with rev := .v2, phase := .direction } .noFrame

/-- R156: in S1 any other byte, the sync byte among them, writes `INIT` and is `InvalidHeader`. That 0x58 is no other byte is PRESUMED by
the spec (R71, decision D7; log entry 2); that every field is written at this moment is decision D5 (log entry 5). -/
def Obligations.UnknownVersionTagIsInvalidHeader : Prop :=
  ∀ (b : Byte) (s : State), s.curParser.stateId = some .s1 → b ≠ 0x4D → b ≠ 0x58 →
    FeedsTo (.vtBad b) s ParserState.init (.err .invalidHeader) ∧
    FeedsTo (.pFeed b) s ParserState.init (.err .invalidHeader)

/-- R157, R158, R159: in S2 and S3 each of the three direction bytes writes its direction and moves to `Length` under V1 and to `Flag`
under V2. That `'>'` is 0x3E and `'!'` is 0x21 is PRESUMED by the spec (R71, decision D7; log entry 2). -/
def Obligations.DirectionByteSetsTheDirection : Prop :=
  ∀ (s : State) (next : Phase),
    (s.curParser.stateId = some .s2 ∧ next = .length ∨ s.curParser.stateId = some .s3 ∧ next = .flag) →
    FeedsTo .dirTo s { s.curParser with dir := .toController, phase := next } .noFrame ∧
    FeedsTo (.pFeed 0x3C) s { s.curParser with dir := .toController, phase := next } .noFrame ∧
    FeedsTo .dirFrom s { s.curParser with dir := .fromController, phase := next } .noFrame ∧
    FeedsTo (.pFeed 0x3E) s { s.curParser with dir := .fromController, phase := next } .noFrame ∧
    FeedsTo .dirUns s { s.curParser with dir := .unsupported, phase := next } .noFrame ∧
    FeedsTo (.pFeed 0x21) s { s.curParser with dir := .unsupported, phase := next } .noFrame

/-- R160 (that no direction hint exists is decision D3): in S2 and S3 any other byte writes `INIT` and is `InvalidDirection`. -/
def Obligations.UnknownDirectionByteIsInvalidDirection : Prop :=
  ∀ (b : Byte) (s : State), (s.curParser.stateId = some .s2 ∨ s.curParser.stateId = some .s3) →
    b ≠ 0x3C → b ≠ 0x3E → b ≠ 0x21 →
    FeedsTo (.dirBad b) s ParserState.init (.err .invalidDirection) ∧
    FeedsTo (.pFeed b) s ParserState.init (.err .invalidDirection)

/-- R161: the V1 length byte loads `remaining`, is folded into `xor_acc` (so that it is `xor_acc`, which was 0), and `Command` follows. -/
def Obligations.V1LengthByteLoadsTheCounter : Prop :=
  ∀ (n : Byte) (s : State), s.curParser.stateId = some .s4 →
    let p : ParserState :=
      { s.curParser with remaining := n.setWidth 16, xorAcc := s.curParser.xorAcc ^^^ n, phase := .command }
    FeedsTo (.v1Len n) s p .noFrame ∧ FeedsTo (.pFeed n) s p .noFrame ∧ (ParserInv s.curParser → p.xorAcc = n)

/-- R162: the V1 command byte is the command, is folded into `xor_acc`, and `Checksum` follows where nothing remains, else `Payload`. With
nothing remaining the accumulator is then the command byte; the command is at most 255. -/
def Obligations.V1CommandByteIsTheCommand : Prop :=
  ∀ (c : Byte) (s : State), s.curParser.stateId = some .s5 →
    let p : ParserState := { s.curParser with
      cmd := c.setWidth 16, xorAcc := s.curParser.xorAcc ^^^ c,
      phase := if s.curParser.remaining = 0 then .checksum else .payload }
    FeedsTo (.v1Cmd c) s p .noFrame ∧ FeedsTo (.pFeed c) s p .noFrame ∧ p.cmd.toNat ≤ 255 ∧
      (ParserInv s.curParser → s.curParser.remaining = 0 → p.xorAcc = c)

/-- R168: a V1 payload byte of any value is appended, counted down and folded; `Checksum` follows when the decremented counter is 0. The
buffer has a free location (R51), as it has in every state that meets R32's invariant, where a frame has at most 255 bytes. -/
def Obligations.V1PayloadByteIsAppended : Prop :=
  ∀ (d : Byte) (s : State), s.curParser.stateId = some .s6 → 1 ≤ s.curParser.remaining.toNat →
    s.curParser.payload.length < 65535 →
    let p : ParserState := { s.curParser with
      payload := s.curParser.payload ++ [d], remaining := s.curParser.remaining - 1,
      xorAcc := s.curParser.xorAcc ^^^ d,
      phase := if s.curParser.remaining.toNat = 1 then .checksum else .payload }
    FeedsTo (.v1Pay d) s p .noFrame ∧ FeedsTo (.pFeed d) s p .noFrame ∧
      (ParserInv s.curParser → p.payload.length ≤ 255)

/-- R170: in S7 the byte equal to `xor_acc` completes the Frame, built from the fields before they are reset. -/
def Obligations.V1MatchingChecksumDeliversTheFrame : Prop :=
  ∀ s : State, s.curParser.stateId = some .s7 →
    FeedsTo (.v1CkOk s.curParser.xorAcc) s ParserState.init
      (.frame { command := s.curParser.cmd, direction := s.curParser.dir, payload := s.curParser.payload }) ∧
    FeedsTo (.pFeed s.curParser.xorAcc) s ParserState.init
      (.frame { command := s.curParser.cmd, direction := s.curParser.dir, payload := s.curParser.payload })

/-- R171: in S7 any other byte writes `INIT` and is `ChecksumMismatch`, `expected` being the byte and `calculated` the accumulator. -/
def Obligations.V1WrongChecksumIsMismatch : Prop :=
  ∀ (k : Byte) (s : State), s.curParser.stateId = some .s7 → k ≠ s.curParser.xorAcc →
    FeedsTo (.v1CkBad k) s ParserState.init (.err (.checksumMismatch k s.curParser.xorAcc)) ∧
    FeedsTo (.pFeed k) s ParserState.init (.err (.checksumMismatch k s.curParser.xorAcc))

/-- R163, R84: the V2 flag of any value is folded into `crc_acc` and not stored; `Command` follows with `idx` 0. A zero flag leaves a zero
accumulator. -/
def Obligations.V2FlagIsAcceptedAndFolded : Prop :=
  ∀ (f : Byte) (s : State), s.curParser.stateId = some .s8 →
    let p : ParserState := { s.curParser with crcAcc := crcFold s.curParser.crcAcc f, phase := .command, idx := false }
    FeedsTo (.v2Flag f) s p .noFrame ∧ FeedsTo (.pFeed f) s p .noFrame ∧
      (s.curParser.crcAcc = 0x00 → f = 0x00 → p.crcAcc = 0x00)

/-- R164, R165: the two V2 command bytes, low byte first, are folded; the command is `hi * 256 + lo`. -/
def Obligations.V2CommandBytesAssembleLittleEndian : Prop :=
  ∀ (c : Byte) (s : State),
    (s.curParser.stateId = some .s9 →
      let p : ParserState :=
        { s.curParser with cmd := c.setWidth 16, crcAcc := crcFold s.curParser.crcAcc c, idx := true }
      FeedsTo (.v2CmdLo c) s p .noFrame ∧ FeedsTo (.pFeed c) s p .noFrame) ∧
    (s.curParser.stateId = some .s10 → ∃ cmd : Half, cmd.toNat = c.toNat * 256 + s.curParser.cmd.toNat % 256 ∧
      let p : ParserState :=
        { s.curParser with cmd := cmd, crcAcc := crcFold s.curParser.crcAcc c, idx := false, phase := .length }
      FeedsTo (.v2CmdHi c) s p .noFrame ∧ FeedsTo (.pFeed c) s p .noFrame)

/-- R166: the low V2 length byte loads `remaining` and is folded; no test for zero is made, the phase stays `Length`. -/
def Obligations.V2LengthLowByteLoadsTheCounter : Prop :=
  ∀ (n : Byte) (s : State), s.curParser.stateId = some .s11 →
    let p : ParserState :=
      { s.curParser with remaining := n.setWidth 16, crcAcc := crcFold s.curParser.crcAcc n, idx := true }
    FeedsTo (.v2LenLo n) s p .noFrame ∧ FeedsTo (.pFeed n) s p .noFrame

/-- R167: the high V2 length byte completes `remaining = hi * 256 + lo`, is folded, and `Checksum` follows where that is 0, else `Payload`;
every length is accepted. -/
def Obligations.V2LengthHighByteTestsForZero : Prop :=
  ∀ (n : Byte) (s : State), s.curParser.stateId = some .s12 →
    ∃ len : Half, len.toNat = n.toNat * 256 + s.curParser.remaining.toNat % 256 ∧
      let p : ParserState := { s.curParser with
        remaining := len, crcAcc := crcFold s.curParser.crcAcc n, idx := false,
        phase := if len.toNat = 0 then .checksum else .payload }
      FeedsTo (.v2LenHi n) s p .noFrame ∧ FeedsTo (.pFeed n) s p .noFrame

/-- R169 (folding on arrival is decision D8): a V2 payload byte of any value is appended, counted down and folded; `Checksum` follows when
the decremented counter is 0. The buffer has a free location (R51), as in every state that meets R32's invariant. -/
def Obligations.V2PayloadByteIsAppended : Prop :=
  ∀ (d : Byte) (s : State), s.curParser.stateId = some .s13 → 1 ≤ s.curParser.remaining.toNat →
    s.curParser.payload.length < 65535 →
    let p : ParserState := { s.curParser with
      payload := s.curParser.payload ++ [d], remaining := s.curParser.remaining - 1,
      crcAcc := crcFold s.curParser.crcAcc d,
      phase := if s.curParser.remaining.toNat = 1 then .checksum else .payload }
    FeedsTo (.v2Pay d) s p .noFrame ∧ FeedsTo (.pFeed d) s p .noFrame ∧
      (ParserInv s.curParser → p.payload.length ≤ 65535)

/-- R172: in S14 the byte equal to the finalized `crc_acc` completes the Frame, built from the fields before they are reset. -/
def Obligations.V2MatchingChecksumDeliversTheFrame : Prop :=
  ∀ s : State, s.curParser.stateId = some .s14 →
    FeedsTo (.v2CkOk (crcFinal s.curParser.crcAcc)) s ParserState.init
      (.frame { command := s.curParser.cmd, direction := s.curParser.dir, payload := s.curParser.payload }) ∧
    FeedsTo (.pFeed (crcFinal s.curParser.crcAcc)) s ParserState.init
      (.frame { command := s.curParser.cmd, direction := s.curParser.dir, payload := s.curParser.payload })

/-- R173: in S14 any other byte writes `INIT` and is `ChecksumMismatch`, `calculated` being the finalized accumulator. -/
def Obligations.V2WrongChecksumIsMismatch : Prop :=
  ∀ (k : Byte) (s : State), s.curParser.stateId = some .s14 → k ≠ crcFinal s.curParser.crcAcc →
    FeedsTo (.v2CkBad k) s ParserState.init (.err (.checksumMismatch k (crcFinal s.curParser.crcAcc))) ∧
    FeedsTo (.pFeed k) s ParserState.init (.err (.checksumMismatch k (crcFinal s.curParser.crcAcc)))

/-! ### The map of R81 -/

/-- R81: in every control state every byte is an instruction of exactly one row: the decoder finds one, and it is the only row of that
byte whose class and control state (as R81 gives them) hold. -/
def Obligations.ByteClassesAreExhaustiveAndDisjoint : Prop :=
  ∀ (c : Context) (b : Byte), ∃ i, decodeByte c b = some i ∧
    ∀ j : Instr, (encode j = .byte b ∧ j.fits = true ∧ j.encodable c = true) ↔ j = i

/-- R81, R150: `P.FEED` of a byte is the row the decoder gives for the addressed parser's control state, and any other `parser-byte` row of
that byte is refused there (the refusal is the model's choice, log entry 9). -/
def Obligations.FeedRunsTheRowTheMapSelects : Prop :=
  ∀ (s : State) (c : Context) (b : Byte) (i : Instr), s.curParser.context = some c → decodeByte c b = some i →
    exec (.pFeed b) s = exec i s ∧ ∀ j : Instr, encode j = .byte b → j ≠ i → exec j s = .refused .rowNotSelected

/-- R175, R207 (decision D9): in a control state outside the fifteen a `P.FEED`, and a stream byte, is refused. In a payload state with
nothing remaining (against the entry condition of R168 and R169), and in one whose buffer is full (R51), the payload byte is refused; the
names are the model's choice (log entries 4, 11 and 16). -/
def Obligations.UnreachableParserStatesAreRefused : Prop :=
  ∀ (s : State) (b : Byte),
    (s.curParser.stateId = none →
      exec (.pFeed b) s = .refused .unreachableControl ∧
      ∀ later, step { s with pending := ⟨s.cur, .byte b⟩ :: later } = .refused .unreachableControl) ∧
    (s.curParser.stateId = some .s6 →
      (s.curParser.remaining = 0 → exec (.v1Pay b) s = .refused .payloadComplete ∧
        exec (.pFeed b) s = .refused .payloadComplete) ∧
      (s.curParser.remaining ≠ 0 → 65535 ≤ s.curParser.payload.length →
        exec (.v1Pay b) s = .refused .payloadOverCapacity ∧ exec (.pFeed b) s = .refused .payloadOverCapacity)) ∧
    (s.curParser.stateId = some .s13 →
      (s.curParser.remaining = 0 → exec (.v2Pay b) s = .refused .payloadComplete ∧
        exec (.pFeed b) s = .refused .payloadComplete) ∧
      (s.curParser.remaining ≠ 0 → 65535 ≤ s.curParser.payload.length →
        exec (.v2Pay b) s = .refused .payloadOverCapacity ∧ exec (.pFeed b) s = .refused .payloadOverCapacity))

/-! ### Whole frames and streams -/

/-- The two frame rows run in every state whose addressed parser meets R32's invariant: the bytes are fed in order, one result each, the
invariant holds after, and nothing but the addressed parser changes. -/
def Obligations.FrameRowsRunFromEveryReachableParser : Prop :=
  ∀ (d f k : Byte) (p : List Byte) (s : State), ParserInv s.curParser →
    (∀ c : Byte, p.length ≤ 255 → ∃ q rs, RunsTo (.frameV1 d c p k) s q rs ∧ rs.length = 6 + p.length ∧ ParserInv q ∧
      BytesTo ([0x24, 0x4D, d, BitVec.ofNat 8 p.length, c] ++ p ++ [k]) s q rs) ∧
    (∀ c : Half, p.length ≤ 65535 → ∃ q rs, RunsTo (.frameV2 d f c p k) s q rs ∧ rs.length = 9 + p.length ∧ ParserInv q ∧
      BytesTo ([0x24, 0x58, d, f, c.extractLsb' 0 8, c.extractLsb' 8 8, (BitVec.ofNat 16 p.length).extractLsb' 0 8,
        (BitVec.ofNat 16 p.length).extractLsb' 8 8] ++ p ++ [k]) s q rs)

/-- R177, R170: from `INIT` every well-formed V1 frame row delivers `None` for all bytes but the last and its Frame for the last, and ends
in `INIT`. -/
def Obligations.WellFormedV1FrameIsDelivered : Prop :=
  ∀ (d c : Byte) (p : List Byte) (k : Byte) (dir : Direction) (s : State), s.curParser = ParserState.init →
    (Instr.frameV1 d c p k).wf = true → dirOf d = some dir →
    RunsTo (.frameV1 d c p k) s ParserState.init
      (List.replicate (5 + p.length) .noFrame ++ [.frame { command := c.setWidth 16, direction := dir, payload := p }])

/-- R177, R172, R84: the same of every well-formed V2 frame row, with any flag value. -/
def Obligations.WellFormedV2FrameIsDelivered : Prop :=
  ∀ (d f : Byte) (c : Half) (p : List Byte) (k : Byte) (dir : Direction) (s : State), s.curParser = ParserState.init →
    (Instr.frameV2 d f c p k).wf = true → dirOf d = some dir →
    RunsTo (.frameV2 d f c p k) s ParserState.init
      (List.replicate (8 + p.length) .noFrame ++ [.frame { command := c, direction := dir, payload := p }])

/-- R177 (the exact statement; truncation under V1 is conflict C2): the bytes `SER.V1` delivers for a Frame of at most 255 payload bytes,
fed from `INIT`, give `None` but for the last and then the Frame with its command cut to 8 bits, which is the Frame itself exactly when the
command is at most 255; the bytes `SER.V2` delivers for any Frame give back that Frame. -/
def Obligations.SerializeThenParseRoundTrips : Prop :=
  ∀ (f : Frame) (u s : State), s.curParser = ParserState.init →
    (f.payload.length ≤ 255 → ∃ t bs f', exec (.serV1 f (6 + f.payload.length)) u = .next t ∧
      t.delivered = u.delivered ++ [⟨u.cur, .ser (.ok bs)⟩] ∧ f' = { f with command := f.command &&& 0xFF } ∧
      BytesTo bs s ParserState.init (List.replicate (5 + f.payload.length) .noFrame ++ [.frame f']) ∧
      (f' = f ↔ f.command.toNat ≤ 255)) ∧
    (f.payload.length ≤ 65535 → ∃ t bs, exec (.serV2 f (9 + f.payload.length)) u = .next t ∧
      t.delivered = u.delivered ++ [⟨u.cur, .ser (.ok bs)⟩] ∧
      BytesTo bs s ParserState.init (List.replicate (8 + f.payload.length) .noFrame ++ [.frame f]))

/-- R178: from `INIT`, bytes none of which is `0x24` give `None` for each and leave the parser in `INIT`. -/
def Obligations.NoiseLeavesTheParserInInit : Prop :=
  ∀ (g : List Byte) (s : State), s.curParser = ParserState.init → 0x24 ∉ g →
    BytesTo g s ParserState.init (List.replicate g.length .noFrame)

/-- R179: from `INIT` every proper prefix of a well-formed frame gives only `None`. -/
def Obligations.ProperPrefixOfAFrameGivesOnlyNone : Prop :=
  ∀ (w u v : List Byte) (s : State), s.curParser = ParserState.init → (isV1Frame w = true ∨ isV2Frame w = true) →
    w = u ++ v → v ≠ [] → ∃ p, BytesTo u s p (List.replicate u.length .noFrame)

/-- R180: a well-formed frame whose last byte `k` is replaced by another byte `x` gives `None` for all bytes but the last, then
`ChecksumMismatch{expected: x, calculated: k}`, and leaves the parser in `INIT`. -/
def Obligations.WrongLastByteIsChecksumMismatch : Prop :=
  ∀ (w : List Byte) (k x : Byte) (s : State), s.curParser = ParserState.init →
    (isV1Frame (w ++ [k]) = true ∨ isV2Frame (w ++ [k]) = true) → x ≠ k →
    BytesTo (w ++ [x]) s ParserState.init (List.replicate w.length .noFrame ++ [.err (.checksumMismatch x k)])

/-- R181: a stream of well-formed frames of both revisions with noise between them gives, in order, exactly the Frames they denote, each at
its last byte, and ends in `INIT`. An item is the noise before a frame, the frame's bytes and the Frame it denotes. -/
def Obligations.StreamOfFramesIsDeliveredInOrder : Prop :=
  ∀ (items : List (List Byte × List Byte × Frame)) (tail : List Byte) (s : State), s.curParser = ParserState.init →
    (∀ x ∈ items, 0x24 ∉ x.1 ∧
      (isV1Frame x.2.1 = true ∧ denoteV1 x.2.1 = some x.2.2 ∨ isV2Frame x.2.1 = true ∧ denoteV2 x.2.1 = some x.2.2)) →
    0x24 ∉ tail →
    BytesTo ((items.flatMap fun x => x.1 ++ x.2.1) ++ tail) s ParserState.init
      ((items.flatMap fun x => List.replicate (x.1.length + (x.2.1.length - 1)) .noFrame ++ [.frame x.2.2]) ++
        List.replicate tail.length .noFrame)

/-- R182: after the sync byte the parser is back in `INIT` after at most 260 further bytes if the next is `0x4D`, 65543 if it is `0x58`, and
1 otherwise, whatever the bytes are. -/
def Obligations.ParserReturnsToInitWithinTheBound : Prop :=
  ∀ (tag : Byte) (bs : List Byte) (s : State), s.curParser = { ParserState.init with phase := .versionTag } →
    (if tag = 0x4D then 260 else if tag = 0x58 then 65543 else 1) ≤ (tag :: bs).length →
    ∃ n, 1 ≤ n ∧ n ≤ (if tag = 0x4D then 260 else if tag = 0x58 then 65543 else 1) ∧
      ∃ rs, BytesTo ((tag :: bs).take n) s ParserState.init rs

/-- R183, R33, R150: in every state whose addressed parser meets R32's invariant a `P.FEED` of any byte has exactly one result, and after a
Frame or an error the parser is in `INIT`. -/
def Obligations.EveryFeedHasOneResultAndResultsEndInInit : Prop :=
  ∀ (b : Byte) (s : State), ParserInv s.curParser →
    ∃ p r, FeedsTo (.pFeed b) s p r ∧ ParserInv p ∧ (r ≠ .noFrame → p = ParserState.init)

/-- R183: from `INIT`, a first result other than `None` leaves `INIT` and comes after at least 2 bytes, and after at least 6 where it is a
Frame; the same then holds between any two such results, since each leaves `INIT`. -/
def Obligations.ResultsNeedTheirBytes : Prop :=
  ∀ (w : List Byte) (s : State) (p : ParserState) (n : Nat) (r : FeedResult), s.curParser = ParserState.init → r ≠ .noFrame →
    BytesTo w s p (List.replicate n .noFrame ++ [r]) →
    p = ParserState.init ∧ w.length = n + 1 ∧ 2 ≤ w.length ∧ ∀ f, r = .frame f → 6 ≤ w.length

/-! ### Instances -/

/-- R222, R46: whatever instruction runs, no register and no result of an instance other than the addressed one changes, and nothing
delivered before is lost. -/
def Obligations.InstructionsTouchOnlyTheirInstance : Prop :=
  ∀ (i : Instr) (s t : State), exec i s = .next t →
    ParsersSameBut s.cur s t ∧ XorRegsSameBut s.cur s t ∧ CrcRegsSameBut s.cur s t ∧
    (∀ k, k ≠ s.cur → t.resultsOf k = s.resultsOf k) ∧ (∃ ds, t.delivered = s.delivered ++ ds) ∧ TraceSame s t

/-- R61: operations on different instances commute in registers and results. If `a` runs on instance `k` and then `b` on instance `l`, they
also run in the other order, and every instance has the same registers and the same results in the same order. The destination memory is
left out: that all serialize calls write one memory is the model's choice (log entry 6), so two of them leave it as the later one does;
the bytes of each are in its result. -/
def Obligations.OperationsOnDifferentInstancesCommute : Prop :=
  ∀ (a b : Instr) (k l : Nat) (s t t' : State), k ≠ l →
    exec a { s with cur := k } = .next t → exec b { t with cur := l } = .next t' →
    ∃ u u', exec b { s with cur := l } = .next u ∧ exec a { u with cur := k } = .next u' ∧
      ParsersSame t' u' ∧ XorRegsSame t' u' ∧ CrcRegsSame t' u' ∧ ∀ j, u'.resultsOf j = t'.resultsOf j

/-! ### Decoding, encoding and the step -/

/-- A step takes the first line of the trace, addresses its instance, and is `exec` of what the line decodes to; of a burst that begins with
a frame the rest stays first; a burst that does not is replaced by the `P.FEED`s it abbreviates (R92); with nothing presented the state
stays as it is. What a step takes in one piece is the model's choice (log entry 10). -/
def Obligations.StepRunsTheDecodedInstruction : Prop :=
  (∀ (s : State) (k : Nat) (q : Request) (later : List Line) (i : Instr),
    decode (s.parser k).context q = .ok (i, []) → step { s with pending := ⟨k, q⟩ :: later } =
      exec i { s with pending := later, cur := k }) ∧
  (∀ (s : State) (k : Nat) (q : Request) (later : List Line) (i : Instr) (b : Byte) (bs : List Byte),
    decode (s.parser k).context q = .ok (i, b :: bs) → step { s with pending := ⟨k, q⟩ :: later } =
      exec i { s with pending := ⟨k, .burst (b :: bs)⟩ :: later, cur := k }) ∧
  (∀ (s : State) (k : Nat) (bs : List Byte) (later : List Line),
    decode (s.parser k).context (.burst bs) = .error .noFrameRow → step { s with pending := ⟨k, .burst bs⟩ :: later } =
      .next { s with pending := feedLines k bs ++ later, cur := k }) ∧
  (∀ s : State, s.pending = [] → step s = .next s)

/-- R92: running the lines of a byte sequence on one instance is `P.FEEDS` on that instance, whatever follows in the trace. -/
def Obligations.StepsOverBytesAreFeeds : Prop :=
  ∀ (k : Nat) (b : Byte) (bs : List Byte) (later : List Line) (s : State),
    Host.Core.run Sys2Proof.core (bs.length + 1)
        { s with pending := feedLines k (b :: bs) ++ later } =
      feedAll (b :: bs) { s with pending := later, cur := k }

/-- R72, R73, R81: for every instruction whose operands fit, decoding its encoding gives it back with every operand, in every context in
which R81 lets its row stand. -/
def Obligations.DecodeOfEncodeIsTheInstruction : Prop :=
  ∀ (i : Instr) (c : Context), i.fits = true → i.encodable c = true → decode (some c) (encode i) = .ok (i, [])

/-- R70, R80: what the frame decoder reads is the encoding of what it answers, followed by the rest it answers, and its operands fit. -/
def Obligations.DecodedFramesAreTheirOwnEncoding : Prop :=
  ∀ (bs : List Byte) (i : Instr) (rest : List Byte), decodeFrame bs = some (i, rest) →
    ∃ w, encode i = .burst w ∧ bs = w ++ rest ∧ i.fits = true

/-- R88: a byte sequence is a well-formed frame exactly when it is the encoding of a well-formed frame row, and it denotes the Frame of
that row's fields. -/
def Obligations.WellFormedFramesAreTheEncodings : Prop :=
  ∀ w : List Byte,
    (isV1Frame w = true ↔ ∃ d c p k, (Instr.frameV1 d c p k).wf = true ∧ encode (.frameV1 d c p k) = .burst w ∧
      denoteV1 w = (dirOf d).map fun x => { command := c.setWidth 16, direction := x, payload := p }) ∧
    (isV2Frame w = true ↔ ∃ d f c p k, (Instr.frameV2 d f c p k).wf = true ∧ encode (.frameV2 d f c p k) = .burst w ∧
      denoteV2 w = (dirOf d).map fun x => { command := c, direction := x, payload := p })

/-- R72, R73, R81: words written out from the tables decode to the instructions they stand for. -/
def Obligations.WrittenOutWordsDecode : Prop :=
  decodeByte ⟨.s0, 0x00, 0x00⟩ 0b00100100 = some .asSync ∧
  decodeByte ⟨.s1, 0x00, 0x00⟩ 0b01001101 = some .vtV1 ∧
  decodeByte ⟨.s1, 0x00, 0x00⟩ 0b01011000 = some .vtV2 ∧
  decodeByte ⟨.s2, 0x00, 0x00⟩ 0b00111100 = some .dirTo ∧
  decodeByte ⟨.s3, 0x00, 0x00⟩ 0b00111110 = some .dirFrom ∧
  decodeByte ⟨.s3, 0x00, 0x00⟩ 0b00100001 = some .dirUns ∧
  decodeByte ⟨.s7, 0x51, 0x00⟩ 0b01010001 = some (.v1CkOk 0x51) ∧
  decodeByte ⟨.s14, 0x00, 0xFC⟩ 0b11111101 = some (.v2CkBad 0xFD) ∧
  decodeFrame [0x24, 0x4D, 0x3C, 0x02, 0x02, 0xBE, 0xEF, 0x51] = some (.frameV1 0x3C 0x02 [0xBE, 0xEF] 0x51, []) ∧
  decodeFrame [0x24, 0x58, 0x3C, 0x00, 0x03, 0x02, 0x04, 0x00, 0x44, 0x20, 0x00, 0x80, 0xFC] =
    some (.frameV2 0x3C 0x00 515 [0x44, 0x20, 0x00, 0x80] 0xFC, [])

/-- R200 (the codes are decision D11): the codes of the four error kinds, 0 for every other result. -/
def Obligations.ErrorCodesFollowTheList : Prop :=
  ∀ r : Result,
    (r.code = 1 ↔ r = .ser .sizeMismatch) ∧ (r.code = 2 ↔ r = .feed (.err .invalidHeader)) ∧
    (r.code = 3 ↔ r = .feed (.err .invalidDirection)) ∧
    (r.code = 4 ↔ ∃ e c, r = .feed (.err (.checksumMismatch e c))) ∧ r.code ≤ 4

/-! ### Invariants -/

/-- The invariant holds right after reset. -/
def Obligations.ResetMeetsTheInvariant : Prop := Inv State.reset

/-- R32, R203, R137: from every state that meets the invariant, a step that answers a next state answers one that meets it: every parser
satisfies its control state's row of R32, the lists and the memory keep their canonical form, and every delivered result is sound. -/
def Obligations.EveryStepKeepsTheInvariant : Prop :=
  ∀ s t : State, Inv s → step s = .next t → Inv t

/-- R212, R150: a host that keeps its duties is never stopped: from every state that meets the invariant, with any bytes and any operations
in range presented, a run of any length neither faults nor is refused, and ends in a state that meets both again. -/
def Obligations.DutifulHostIsNeverStopped : Prop :=
  ∀ (n : Nat) (s : State), Inv s → HostKeepsDuties s →
    SafeRun n s ∧ ∀ t, Host.Core.run Sys2Proof.core n s = .next t → Inv t ∧ HostKeepsDuties t
end

