-- ==== Sys2Proof/Laws/Bank.lean ====
section
/-! SUPPORT. The laws of numbered lists and of byte memory: read after write, write elsewhere, and the canonical form kept. -/

namespace Sys2Proof.Machine

variable {α : Type}

@[simp] theorem bankFind_nil (k : Nat) : bankFind k ([] : List (Nat × α)) = none := rfl

@[simp] theorem bankFind_insert_same (k : Nat) (v : α) (m : List (Nat × α)) :
    bankFind k (bankInsert k v m) = some v := by
  induction m with
  | nil => simp [bankInsert, bankFind]
  | cons e m ih =>
    obtain ⟨j, w⟩ := e
    unfold bankInsert
    split_ifs with h1 h2
    · simp [bankFind]
    · simp [bankFind]
    · simp [bankFind, Ne.symm h2, ih]

theorem bankFind_insert_other {k l : Nat} (h : l ≠ k) (v : α) (m : List (Nat × α)) :
    bankFind l (bankInsert k v m) = bankFind l m := by
  induction m with
  | nil => simp [bankInsert, bankFind, Ne.symm h]
  | cons e m ih =>
    obtain ⟨j, w⟩ := e
    unfold bankInsert
    split_ifs with h1 h2
    · simp [bankFind, Ne.symm h]
    · subst h2; simp [bankFind, Ne.symm h]
    · simp [bankFind, ih]

@[simp] theorem bankFind_erase_same (k : Nat) (m : List (Nat × α)) : bankFind k (bankErase k m) = none := by
  induction m with
  | nil => rfl
  | cons e m ih =>
    obtain ⟨j, w⟩ := e
    by_cases h : j = k
    · subst h; simpa [bankErase] using ih
    · simpa [bankErase, h, bankFind] using ih

theorem bankFind_erase_other {k l : Nat} (h : l ≠ k) (m : List (Nat × α)) :
    bankFind l (bankErase k m) = bankFind l m := by
  induction m with
  | nil => rfl
  | cons e m ih =>
    obtain ⟨j, w⟩ := e
    by_cases hj : j = k
    · subst hj
      simpa [bankErase, bankFind, Ne.symm h] using ih
    · have ih' : bankFind l (List.filter (fun e => !decide (e.1 = k)) m) = bankFind l m := by simpa [bankErase] using ih
      simp [bankErase, hj, bankFind, ih']

@[simp] theorem bankGet_nil (d : α) (k : Nat) : bankGet d k ([] : List (Nat × α)) = d := rfl

@[simp] theorem bankGet_put_same [DecidableEq α] (d : α) (k : Nat) (v : α) (m : List (Nat × α)) :
    bankGet d k (bankPut d k v m) = v := by
  unfold bankGet bankPut
  split_ifs with h <;> simp [h]

theorem bankGet_put_other [DecidableEq α] (d : α) {k l : Nat} (h : l ≠ k) (v : α) (m : List (Nat × α)) :
    bankGet d l (bankPut d k v m) = bankGet d l m := by
  unfold bankGet bankPut
  split_ifs with hv
  · rw [bankFind_erase_other h]
  · rw [bankFind_insert_other h]

/-- Every number entered by an insertion was there before or is the one inserted. -/
theorem mem_bankInsert {k : Nat} {v : α} {m : List (Nat × α)} {e : Nat × α} (h : e ∈ bankInsert k v m) :
    e = (k, v) ∨ e ∈ m := by
  induction m with
  | nil => simpa [bankInsert] using h
  | cons x m ih =>
    obtain ⟨j, w⟩ := x
    unfold bankInsert at h
    split_ifs at h with h1 h2
    · simpa using h
    · rcases List.mem_cons.1 h with h | h
      · exact .inl h
      · exact .inr (List.mem_cons_of_mem _ h)
    · rcases List.mem_cons.1 h with h | h
      · exact .inr (h ▸ List.mem_cons_self)
      · rcases ih h with h | h
        · exact .inl h
        · exact .inr (List.mem_cons_of_mem _ h)

theorem bankSorted_cons {j : Nat} {w : α} {m : List (Nat × α)} :
    bankSorted ((j, w) :: m) = true ↔ (∀ e ∈ m, j < e.1) ∧ bankSorted m = true := by
  simp [bankSorted]

theorem bankSorted_insert (k : Nat) (v : α) {m : List (Nat × α)} (h : bankSorted m = true) :
    bankSorted (bankInsert k v m) = true := by
  induction m with
  | nil => simp [bankInsert, bankSorted]
  | cons x m ih =>
    obtain ⟨j, w⟩ := x
    obtain ⟨hj, hm⟩ := bankSorted_cons.1 h
    unfold bankInsert
    split_ifs with h1 h2
    · refine bankSorted_cons.2 ⟨fun e he => ?_, h⟩
      rcases List.mem_cons.1 he with rfl | he
      · exact h1
      · exact h1.trans (hj e he)
    · subst h2; exact bankSorted_cons.2 ⟨hj, hm⟩
    · refine bankSorted_cons.2 ⟨fun e he => ?_, ih hm⟩
      rcases mem_bankInsert he with rfl | he
      · show j < k; omega
      · exact hj e he

theorem bankSorted_erase (k : Nat) {m : List (Nat × α)} (h : bankSorted m = true) :
    bankSorted (bankErase k m) = true := by
  induction m with
  | nil => rfl
  | cons x m ih =>
    obtain ⟨j, w⟩ := x
    obtain ⟨hj, hm⟩ := bankSorted_cons.1 h
    by_cases hk : j = k
    · simpa [bankErase, hk] using ih hm
    · have : bankErase k ((j, w) :: m) = (j, w) :: bankErase k m := by simp [bankErase, hk]
      rw [this]
      exact bankSorted_cons.2 ⟨fun e he => hj e (List.mem_filter.1 he).1, ih hm⟩

/-- A write keeps the canonical form. -/
theorem bankWf_put [DecidableEq α] (d : α) (k : Nat) (v : α) {m : List (Nat × α)} (h : bankWf d m = true) :
    bankWf d (bankPut d k v m) = true := by
  simp only [bankWf, Bool.and_eq_true, List.all_eq_true, decide_eq_true_eq] at h ⊢
  unfold bankPut
  split_ifs with hv
  · exact ⟨bankSorted_erase k h.1, fun e he => h.2 e (List.mem_filter.1 he).1⟩
  · refine ⟨bankSorted_insert k v h.1, fun e he => ?_⟩
    rcases mem_bankInsert he with rfl | he
    · exact hv
    · exact h.2 e he

/-! ### Byte memory -/

@[simp] theorem Memory.read_write_same (m : Memory) (a : Nat) (v : Byte) : (m.write a v).read a = some v :=
  bankFind_insert_same a v m

theorem Memory.read_write_other (m : Memory) {a b : Nat} (h : b ≠ a) (v : Byte) :
    (m.write a v).read b = m.read b :=
  bankFind_insert_other h v m

theorem Memory.wf_write {m : Memory} (h : m.wf = true) (a : Nat) (v : Byte) : (m.write a v).wf = true :=
  bankSorted_insert a v h

theorem Memory.wf_writeAll {m : Memory} (h : m.wf = true) (a : Nat) (bs : List Byte) : (m.writeAll a bs).wf = true := by
  induction bs generalizing a with
  | nil => exact h
  | cons v vs ih => exact Memory.wf_write (ih (a + 1)) a v

/-- What a byte reads as after a run of writes: inside the run the byte written, outside it what it read before. -/
theorem Memory.read_writeAll (m : Memory) (a : Nat) (bs : List Byte) (b : Nat) :
    (m.writeAll a bs).read b = if a ≤ b ∧ b < a + bs.length then bs[b - a]? else m.read b := by
  induction bs generalizing a with
  | nil => simp [Memory.writeAll]
  | cons v vs ih =>
    unfold Memory.writeAll
    by_cases h : b = a
    · subst h; simp
    · rw [Memory.read_write_other _ h, ih]
      simp only [List.length_cons]
      by_cases h1 : a + 1 ≤ b ∧ b < a + 1 + vs.length
      · rw [if_pos h1, if_pos (by omega)]
        have : b - a = (b - (a + 1)) + 1 := by omega
        rw [this, List.getElem?_cons_succ]
      · rw [if_neg h1, if_neg (by omega)]

end Sys2Proof.Machine
end

