-- ==== Sys2Proof/Laws/Checks.lean ====
section
/-! SUPPORT. The laws of the two folds that other proofs cite. -/

namespace Sys2Proof.Machine

/-! ### XOR -/

@[simp] theorem xorBulk_nil (a : Byte) : xorBulk a [] = a := rfl
@[simp] theorem xorBulk_cons (a b : Byte) (bs : List Byte) : xorBulk a (b :: bs) = xorBulk (xorFold a b) bs := rfl
theorem xorBulk_append (a : Byte) (s t : List Byte) : xorBulk a (s ++ t) = xorBulk (xorBulk a s) t := List.foldl_append

/-- The start value of a fold can be taken out. -/
theorem xorBulk_eq (a : Byte) (bs : List Byte) : xorBulk a bs = a ^^^ xorBulk 0x00 bs := by
  induction bs generalizing a with
  | nil => simp
  | cons b bs ih =>
    rw [xorBulk_cons, xorBulk_cons, ih (xorFold a b), ih (xorFold 0x00 b)]
    simp [xorFold, BitVec.xor_assoc]

theorem xorSum_snoc (s : List Byte) (b : Byte) : xorSum (s ++ [b]) = xorFold (xorSum s) b := by
  simp [xorSum, xorBulk_append]

/-! ### CRC-8 -/

@[simp] theorem crcBulk_nil (a : Byte) : crcBulk a [] = a := rfl
@[simp] theorem crcBulk_cons (a b : Byte) (bs : List Byte) : crcBulk a (b :: bs) = crcBulk (crcFold a b) bs := rfl
theorem crcBulk_append (a : Byte) (s t : List Byte) : crcBulk a (s ++ t) = crcBulk (crcBulk a s) t := List.foldl_append
theorem crcBulk_snoc (a : Byte) (s : List Byte) (b : Byte) : crcBulk a (s ++ [b]) = crcFold (crcBulk a s) b := by
  simp [crcBulk_append]

/-- R115 at the parameters of R111: finalisation is the identity. -/
theorem crcFinal_eq (c : Byte) : crcFinal c = c := by
  simp [crcFinal, crcFinalWith, crcParams, Config.crc8Reflect, Config.crc8XorOut]

/-- R113 at the parameters of R111: an update depends on `crc ^ b` alone. -/
theorem crcFold_eq (c b : Byte) : crcFold c b = crcShifts crcParams 8 (c ^^^ b) := by
  simp [crcFold, crcFoldWith, crcInput, crcParams, Config.crc8Reflect]

/-- One shift is linear. -/
theorem crcShift_xor (q : Config.CrcParams) (a b : Byte) :
    crcShift q (a ^^^ b) = crcShift q a ^^^ crcShift q b := by
  unfold crcShift
  rw [BitVec.msb_xor]
  cases a.msb <;> cases b.msb <;> simp [BitVec.shiftLeft_xor_distrib] <;> ext i <;> simp <;>
    (try cases q.poly[i] <;> simp)

theorem crcShifts_xor (q : Config.CrcParams) (n : Nat) (a b : Byte) :
    crcShifts q n (a ^^^ b) = crcShifts q n a ^^^ crcShifts q n b := by
  induction n generalizing a b with
  | zero => rfl
  | succ n ih => simp [crcShifts, crcShift_xor, ih]

/-- An update is linear in the register and the byte together. -/
theorem crcFold_xor (c d a b : Byte) : crcFold (c ^^^ d) (a ^^^ b) = crcFold c a ^^^ crcFold d b := by
  simp only [crcFold_eq, ← crcShifts_xor]
  congr 1
  ac_rfl

theorem crcFold_self (c : Byte) : crcFold c c = 0x00 := by
  rw [crcFold_eq, BitVec.xor_self]; decide

/-- A shift takes only zero to zero: the polynomial's lowest bit is set and a shifted byte's is not. -/
theorem crcShift_eq_zero {a : Byte} (h : crcShift crcParams a = 0x00) : a = 0x00 := by
  unfold crcShift at h
  split at h
  · have := congrArg (fun x : Byte => x.getLsbD 0) h
    simp [crcParams, Config.crc8Poly] at this
  · next hm =>
    have hm : 2 * a.toNat < 256 := BitVec.msb_eq_false_iff_two_mul_lt.1 (by simpa using hm)
    have : a.toNat * 2 % 256 = 0 := by simpa [Nat.shiftLeft_eq] using congrArg BitVec.toNat h
    exact BitVec.eq_of_toNat_eq (by simp; omega)

theorem crcShifts_eq_zero {n : Nat} {a : Byte} (h : crcShifts crcParams n a = 0x00) : a = 0x00 := by
  induction n generalizing a with
  | zero => exact h
  | succ n ih => exact crcShift_eq_zero (ih h)

/-- An update tells bytes apart. -/
theorem crcFold_inj_right {c x y : Byte} (h : crcFold c x = crcFold c y) : x = y := by
  have h0 : crcFold 0x00 (x ^^^ y) = 0x00 := by
    have h1 := crcFold_xor c c x y
    rw [h] at h1
    simpa using h1
  have h2 : crcShifts crcParams 8 (x ^^^ y) = 0x00 := by simpa [crcFold_eq] using h0
  simpa using crcShifts_eq_zero h2

/-- An update tells register values apart. -/
theorem crcFold_inj_left {c d x : Byte} (h : crcFold c x = crcFold d x) : c = d := by
  rw [crcFold_eq, crcFold_eq, BitVec.xor_comm c, BitVec.xor_comm d, ← crcFold_eq, ← crcFold_eq] at h
  exact crcFold_inj_right h

end Sys2Proof.Machine
end

