-- ==== Sys2Proof/Laws/Operands.lean ====
section
/-! SUPPORT. Splitting and assembling two-byte fields (R76, R77). -/

namespace Sys2Proof.Machine

/-- `{hi, lo} = hi * 256 + lo` (R76). -/
theorem joinBytes_toNat (hi lo : Byte) : (joinBytes hi lo).toNat = hi.toNat * 256 + lo.toNat := by
  simp only [joinBytes, BitVec.toNat_append]
  rw [← Nat.shiftLeft_add_eq_or_of_lt lo.isLt, Nat.shiftLeft_eq]

theorem lowByte_toNat (h : Half) : (lowByte h).toNat = h.toNat % 256 := by simp [lowByte]

theorem highByte_toNat (h : Half) : (highByte h).toNat = h.toNat / 256 := by
  have := h.isLt
  simp [highByte, Nat.shiftRight_eq_div_pow]
  omega

@[simp] theorem lowByte_joinBytes (hi lo : Byte) : lowByte (joinBytes hi lo) = lo := by
  have := lo.isLt
  apply BitVec.eq_of_toNat_eq
  rw [lowByte_toNat, joinBytes_toNat]; omega

@[simp] theorem highByte_joinBytes (hi lo : Byte) : highByte (joinBytes hi lo) = hi := by
  have := lo.isLt
  apply BitVec.eq_of_toNat_eq
  rw [highByte_toNat, joinBytes_toNat]; omega

/-- The split of a 16-bit value loses nothing (R138). -/
@[simp] theorem joinBytes_split (h : Half) : joinBytes (highByte h) (lowByte h) = h := by
  apply BitVec.eq_of_toNat_eq
  rw [joinBytes_toNat, highByte_toNat, lowByte_toNat]; omega

@[simp] theorem lowByte_zext16 (b : Byte) : lowByte (zext16 b) = b := by
  apply BitVec.eq_of_toNat_eq
  have := b.isLt
  simp [lowByte, zext16]

theorem zext16_toNat (b : Byte) : (zext16 b).toNat = b.toNat := by
  have := b.isLt
  simp [zext16]; omega

theorem lenByte_toNat {n : Nat} (h : n ≤ 255) : (lenByte n).toNat = n := by
  simp [lenByte]; omega

theorem lenHalf_toNat {n : Nat} (h : n ≤ 65535) : (lenHalf n).toNat = n := by
  simp [lenHalf]; omega

theorem lenByte_of_toNat {n : Nat} {b : Byte} (h : n = b.toNat) : lenByte n = b := by
  subst h; simp [lenByte]

theorem lenHalf_of_toNat {n : Nat} {b : Half} (h : n = b.toNat) : lenHalf n = b := by
  subst h; simp [lenHalf]

end Sys2Proof.Machine
end

