-- ==== Sys2Proof/Laws/Decode.lean ====
section
/-! SUPPORT. What the two decoders answer, said once: the byte decoder as R81's map, the frame decoder on the bytes of a frame row. -/

namespace Sys2Proof

open Sys2Proof.Machine

/-- R81's map, by control state. -/
theorem decodeByte_eq (c : Context) (b : Byte) :
    decodeByte c b = some (match c.state with
      | .s0 => if b = syncByte then .asSync else .asSkip b
      | .s1 => if b = tagV1 then .vtV1 else if b = tagV2 then .vtV2 else .vtBad b
      | .s2 | .s3 =>
        if b = dirToByte then .dirTo else if b = dirFromByte then .dirFrom else if b = dirUnsByte then .dirUns else .dirBad b
      | .s4 => .v1Len b
      | .s5 => .v1Cmd b
      | .s6 => .v1Pay b
      | .s7 => if b = c.xorAcc then .v1CkOk b else .v1CkBad b
      | .s8 => .v2Flag b
      | .s9 => .v2CmdLo b
      | .s10 => .v2CmdHi b
      | .s11 => .v2LenLo b
      | .s12 => .v2LenHi b
      | .s13 => .v2Pay b
      | .s14 => if b = c.crcFinal then .v2CkOk b else .v2CkBad b) := by
  obtain ⟨st, x, f⟩ := c
  have h0 : b &&& 0x00 = 0x00 := BitVec.and_zero
  have hF : b &&& 0xFF = b := BitVec.and_allOnes
  cases st <;>
    simp only [decodeByte, byteRows, headerRows, bodyRowsV1, bodyRowsV2, List.cons_append, List.nil_append, List.find?,
      ByteRow.applies, RowMatch.of, List.mem_cons, List.not_mem_nil, reduceCtorEq, or_false, or_self, or_true,
      decide_false, decide_true, Bool.false_and, Bool.true_and, h0, hF, Option.map_some] <;>
    (try split_ifs) <;> simp_all

/-- R72, R80: the frame decoder on the bytes of a V1 frame row, whatever follows them. -/
theorem decodeFrame_frameBytesV1 (d c k : Byte) {p : List Byte} (h : p.length ≤ 255) (rest : List Byte) :
    decodeFrame (frameBytesV1 d c p k ++ rest) = some (.frameV1 d c p k, rest) := by
  simp [decodeFrame, frameBytesV1, decodeBodyV1, lenByte_toNat h]

/-- R73, R80: the frame decoder on the bytes of a V2 frame row, whatever follows them. -/
theorem decodeFrame_frameBytesV2 (d f : Byte) (c : Half) (k : Byte) {p : List Byte} (h : p.length ≤ 65535)
    (rest : List Byte) :
    decodeFrame (frameBytesV2 d f c p k ++ rest) = some (.frameV2 d f c p k, rest) := by
  have : tagV2 ≠ tagV1 := by decide
  simp [decodeFrame, frameBytesV2, decodeBodyV2, this, lenHalf_toNat h]

end Sys2Proof
end

