-- ==== Sys2Proof/Laws/State.lean ====
section
/-! SUPPORT. One lemma per field per update of State, so that no proof unfolds a record update. -/

namespace Sys2Proof.Machine

/-! ### setParser -/

@[simp] theorem setParser_cur (s : State) (k : Nat) (p : ParserState) : (s.setParser k p).cur = s.cur := rfl
@[simp] theorem setParser_dst (s : State) (k : Nat) (p : ParserState) : (s.setParser k p).dst = s.dst := rfl
@[simp] theorem setParser_pending (s : State) (k : Nat) (p : ParserState) : (s.setParser k p).pending = s.pending := rfl
@[simp] theorem setParser_delivered (s : State) (k : Nat) (p : ParserState) :
    (s.setParser k p).delivered = s.delivered := rfl
@[simp] theorem setParser_xorAccs (s : State) (k : Nat) (p : ParserState) : (s.setParser k p).xorAccs = s.xorAccs := rfl
@[simp] theorem setParser_crcAccs (s : State) (k : Nat) (p : ParserState) : (s.setParser k p).crcAccs = s.crcAccs := rfl
@[simp] theorem setParser_xorReg (s : State) (k l : Nat) (p : ParserState) : (s.setParser k p).xorReg l = s.xorReg l := rfl
@[simp] theorem setParser_crcReg (s : State) (k l : Nat) (p : ParserState) : (s.setParser k p).crcReg l = s.crcReg l := rfl
@[simp] theorem setParser_parser_same (s : State) (k : Nat) (p : ParserState) : (s.setParser k p).parser k = p :=
  bankGet_put_same _ _ _ _
theorem setParser_parser_other (s : State) {k l : Nat} (h : l ≠ k) (p : ParserState) :
    (s.setParser k p).parser l = s.parser l :=
  bankGet_put_other _ h _ _

/-! ### setXorReg and setCrcReg -/

@[simp] theorem setXorReg_cur (s : State) (k : Nat) (v : Byte) : (s.setXorReg k v).cur = s.cur := rfl
@[simp] theorem setXorReg_dst (s : State) (k : Nat) (v : Byte) : (s.setXorReg k v).dst = s.dst := rfl
@[simp] theorem setXorReg_pending (s : State) (k : Nat) (v : Byte) : (s.setXorReg k v).pending = s.pending := rfl
@[simp] theorem setXorReg_delivered (s : State) (k : Nat) (v : Byte) : (s.setXorReg k v).delivered = s.delivered := rfl
@[simp] theorem setXorReg_parsers (s : State) (k : Nat) (v : Byte) : (s.setXorReg k v).parsers = s.parsers := rfl
@[simp] theorem setXorReg_crcAccs (s : State) (k : Nat) (v : Byte) : (s.setXorReg k v).crcAccs = s.crcAccs := rfl
@[simp] theorem setXorReg_parser (s : State) (k l : Nat) (v : Byte) : (s.setXorReg k v).parser l = s.parser l := rfl
@[simp] theorem setXorReg_crcReg (s : State) (k l : Nat) (v : Byte) : (s.setXorReg k v).crcReg l = s.crcReg l := rfl
@[simp] theorem setXorReg_xorReg_same (s : State) (k : Nat) (v : Byte) : (s.setXorReg k v).xorReg k = v :=
  bankGet_put_same _ _ _ _
theorem setXorReg_xorReg_other (s : State) {k l : Nat} (h : l ≠ k) (v : Byte) :
    (s.setXorReg k v).xorReg l = s.xorReg l :=
  bankGet_put_other _ h _ _

@[simp] theorem setCrcReg_cur (s : State) (k : Nat) (v : Byte) : (s.setCrcReg k v).cur = s.cur := rfl
@[simp] theorem setCrcReg_dst (s : State) (k : Nat) (v : Byte) : (s.setCrcReg k v).dst = s.dst := rfl
@[simp] theorem setCrcReg_pending (s : State) (k : Nat) (v : Byte) : (s.setCrcReg k v).pending = s.pending := rfl
@[simp] theorem setCrcReg_delivered (s : State) (k : Nat) (v : Byte) : (s.setCrcReg k v).delivered = s.delivered := rfl
@[simp] theorem setCrcReg_parsers (s : State) (k : Nat) (v : Byte) : (s.setCrcReg k v).parsers = s.parsers := rfl
@[simp] theorem setCrcReg_xorAccs (s : State) (k : Nat) (v : Byte) : (s.setCrcReg k v).xorAccs = s.xorAccs := rfl
@[simp] theorem setCrcReg_parser (s : State) (k l : Nat) (v : Byte) : (s.setCrcReg k v).parser l = s.parser l := rfl
@[simp] theorem setCrcReg_xorReg (s : State) (k l : Nat) (v : Byte) : (s.setCrcReg k v).xorReg l = s.xorReg l := rfl
@[simp] theorem setCrcReg_crcReg_same (s : State) (k : Nat) (v : Byte) : (s.setCrcReg k v).crcReg k = v :=
  bankGet_put_same _ _ _ _
theorem setCrcReg_crcReg_other (s : State) {k l : Nat} (h : l ≠ k) (v : Byte) :
    (s.setCrcReg k v).crcReg l = s.crcReg l :=
  bankGet_put_other _ h _ _

/-! ### deliver -/

@[simp] theorem deliver_cur (s : State) (r : Result) : (s.deliver r).cur = s.cur := rfl
@[simp] theorem deliver_dst (s : State) (r : Result) : (s.deliver r).dst = s.dst := rfl
@[simp] theorem deliver_pending (s : State) (r : Result) : (s.deliver r).pending = s.pending := rfl
@[simp] theorem deliver_delivered (s : State) (r : Result) : (s.deliver r).delivered = s.delivered ++ [⟨s.cur, r⟩] := rfl
@[simp] theorem deliver_parsers (s : State) (r : Result) : (s.deliver r).parsers = s.parsers := rfl
@[simp] theorem deliver_xorAccs (s : State) (r : Result) : (s.deliver r).xorAccs = s.xorAccs := rfl
@[simp] theorem deliver_crcAccs (s : State) (r : Result) : (s.deliver r).crcAccs = s.crcAccs := rfl
@[simp] theorem deliver_parser (s : State) (r : Result) (k : Nat) : (s.deliver r).parser k = s.parser k := rfl
@[simp] theorem deliver_xorReg (s : State) (r : Result) (k : Nat) : (s.deliver r).xorReg k = s.xorReg k := rfl
@[simp] theorem deliver_crcReg (s : State) (r : Result) (k : Nat) : (s.deliver r).crcReg k = s.crcReg k := rfl

/-! ### take -/

@[simp] theorem take_cur (s : State) (k : Nat) (l : List Line) : (s.take k l).cur = k := rfl
@[simp] theorem take_pending (s : State) (k : Nat) (l : List Line) : (s.take k l).pending = l := rfl
@[simp] theorem take_dst (s : State) (k : Nat) (l : List Line) : (s.take k l).dst = s.dst := rfl
@[simp] theorem take_delivered (s : State) (k : Nat) (l : List Line) : (s.take k l).delivered = s.delivered := rfl
@[simp] theorem take_parsers (s : State) (k : Nat) (l : List Line) : (s.take k l).parsers = s.parsers := rfl
@[simp] theorem take_xorAccs (s : State) (k : Nat) (l : List Line) : (s.take k l).xorAccs = s.xorAccs := rfl
@[simp] theorem take_crcAccs (s : State) (k : Nat) (l : List Line) : (s.take k l).crcAccs = s.crcAccs := rfl
@[simp] theorem take_parser (s : State) (k : Nat) (l : List Line) (j : Nat) : (s.take k l).parser j = s.parser j := rfl
@[simp] theorem take_xorReg (s : State) (k : Nat) (l : List Line) (j : Nat) : (s.take k l).xorReg j = s.xorReg j := rfl
@[simp] theorem take_crcReg (s : State) (k : Nat) (l : List Line) (j : Nat) : (s.take k l).crcReg j = s.crcReg j := rfl

/-! ### reset -/

@[simp] theorem reset_parser (k : Nat) : State.reset.parser k = ParserState.init := rfl
@[simp] theorem reset_xorReg (k : Nat) : State.reset.xorReg k = xorInit := rfl
@[simp] theorem reset_crcReg (k : Nat) : State.reset.crcReg k = crcInit := rfl

/-! ### serialize -/

theorem serialize_eq (s : State) (n : Nat) (bs : List Byte) :
    s.serialize n n bs = ({ s with dst := s.dst.writeAll 0 bs } : State).deliver (.ser (.ok bs)) := by
  simp [State.serialize]

theorem serialize_ne (s : State) {size n : Nat} (h : n ≠ size) (bs : List Byte) :
    s.serialize size n bs = s.deliver (.ser .sizeMismatch) := by
  simp [State.serialize, h, State.raiseSize]

@[simp] theorem serialize_cur (s : State) (size n : Nat) (bs : List Byte) : (s.serialize size n bs).cur = s.cur := by
  unfold State.serialize; split_ifs <;> rfl
@[simp] theorem serialize_pending (s : State) (size n : Nat) (bs : List Byte) :
    (s.serialize size n bs).pending = s.pending := by
  unfold State.serialize; split_ifs <;> rfl
@[simp] theorem serialize_parsers (s : State) (size n : Nat) (bs : List Byte) :
    (s.serialize size n bs).parsers = s.parsers := by
  unfold State.serialize; split_ifs <;> rfl
@[simp] theorem serialize_xorAccs (s : State) (size n : Nat) (bs : List Byte) :
    (s.serialize size n bs).xorAccs = s.xorAccs := by
  unfold State.serialize; split_ifs <;> rfl
@[simp] theorem serialize_crcAccs (s : State) (size n : Nat) (bs : List Byte) :
    (s.serialize size n bs).crcAccs = s.crcAccs := by
  unfold State.serialize; split_ifs <;> rfl

end Sys2Proof.Machine
end

