-- ==== Sys2Proof/Laws/Parser.lean ====
section
/-! SUPPORT. What the parser's shared operations can do, said once each. -/

namespace Sys2Proof.Machine

/-! ### Control states -/

theorem controlId_controlOf (i : StateId) : controlId (controlOf i) = some i := by
  cases i <;> rfl

/-- R25: the fifteen triples, each with its own id. -/
theorem controlId_eq_some {c : Control} {i : StateId} : controlId c = some i ↔ c = controlOf i := by
  constructor
  · obtain ⟨ph, r, b⟩ := c
    cases ph <;> cases r <;> cases b <;> simp only [controlId, Option.some.injEq, reduceCtorEq, false_implies] <;>
      (rintro rfl; rfl)
  · rintro rfl
    exact controlId_controlOf i

/-- The three control fields of a parser in a given control state. -/
theorem fields_of_stateId {p : ParserState} {i : StateId} (h : p.stateId = some i) :
    p.phase = (controlOf i).phase ∧ p.rev = (controlOf i).rev ∧ p.idx = (controlOf i).idx := by
  have h := controlId_eq_some.1 h
  exact ⟨congrArg Control.phase h, congrArg Control.rev h, congrArg Control.idx h⟩

theorem stateId_of_fields {p : ParserState} (i : StateId) (h1 : p.phase = (controlOf i).phase)
    (h2 : p.rev = (controlOf i).rev) (h3 : p.idx = (controlOf i).idx) : p.stateId = some i :=
  controlId_eq_some.2 (by cases hc : controlOf i; simp_all [ParserState.control])

@[simp] theorem init_stateId : ParserState.init.stateId = some .s0 := rfl

theorem controlIs_iff {s : State} {i : StateId} : s.controlIs i = true ↔ s.curParser.stateId = some i := by
  simp [State.controlIs]

theorem controlIs_eq {s : State} {i : StateId} (h : s.curParser.stateId = some i) (j : StateId) :
    s.controlIs j = decide (i = j) := by
  simp [State.controlIs, h]

/-! ### Results of the shared operations -/

theorem whenSelected_eq_next {c : Bool} {t u : State} : whenSelected c t = .next u ↔ c = true ∧ u = t := by
  cases c <;> simp [whenSelected, eq_comm]

@[simp] theorem whenSelected_true (t : State) : whenSelected true t = .next t := rfl
@[simp] theorem whenSelected_false (t : State) : whenSelected false t = .refused .rowNotSelected := rfl

theorem payloadStep_eq_next {s t : State} {p : ParserState} :
    s.payloadStep p = .next t ↔
      s.curParser.remaining ≠ 0 ∧ s.curParser.payload.length < Config.pbufCap ∧ t = s.advance p := by
  unfold State.payloadStep
  split_ifs with h1 h2
  · simp [h1]
  · simp only [false_iff]
    exact fun h => absurd h.2.1 (by omega)
  · simp only [Host.Outcome.next.injEq, ne_eq, h1, not_false_eq_true, true_and]
    exact ⟨fun h => ⟨by omega, h.symm⟩, fun h => h.2.symm⟩

@[simp] theorem advance_cur (s : State) (p : ParserState) : (s.advance p).cur = s.cur := rfl
@[simp] theorem advance_curParser (s : State) (p : ParserState) : (s.advance p).curParser = p := by
  simp [State.advance, State.curParser]
@[simp] theorem complete_curParser (s : State) (f : Frame) : (s.complete f).curParser = ParserState.init := by
  simp [State.complete, State.curParser]
@[simp] theorem raiseParse_curParser (s : State) (e : ParseError) : (s.raiseParse e).curParser = ParserState.init := by
  simp [State.raiseParse, State.curParser]

/-- R46: writing the addressed parser and delivering changes nothing else. -/
theorem onlyParser_set_deliver (s : State) (p : ParserState) (r : Result) :
    OnlyParser s ((s.setParser s.cur p).deliver r) := by
  refine ⟨fun k hk => ?_, fun _ => rfl, fun _ => rfl, fun _ => rfl, rfl, rfl⟩
  simp [setParser_parser_other s hk]

theorem runsTo_set_deliver {i : Instr} {s : State} {p : ParserState} {r : FeedResult}
    (h : exec i s = .next ((s.setParser s.cur p).deliver (.feed r))) : FeedsTo i s p r :=
  ⟨_, h, by simp, by simp [feedDeliveries], onlyParser_set_deliver s p _⟩

theorem feedsTo_of_advance {i : Instr} {s : State} {p : ParserState} (h : exec i s = .next (s.advance p)) :
    FeedsTo i s p .noFrame := runsTo_set_deliver h

theorem feedsTo_of_complete {i : Instr} {s : State} {f : Frame} (h : exec i s = .next (s.complete f)) :
    FeedsTo i s ParserState.init (.frame f) := runsTo_set_deliver h

theorem feedsTo_of_raiseParse {i : Instr} {s : State} {e : ParseError} (h : exec i s = .next (s.raiseParse e)) :
    FeedsTo i s ParserState.init (.err e) := runsTo_set_deliver h

/-! ### Frames of runs -/

theorem OnlyParser.refl (s : State) : OnlyParser s s :=
  ⟨fun _ _ => rfl, fun _ => rfl, fun _ => rfl, fun _ => rfl, rfl, rfl⟩

theorem OnlyParser.trans {s t u : State} (h : OnlyParser s t) (g : OnlyParser t u) : OnlyParser s u := by
  obtain ⟨h1, h2, h3, h4, h5, h6⟩ := h
  obtain ⟨g1, g2, g3, g4, g5, g6⟩ := g
  refine ⟨fun k hk => ?_, fun k => ?_, fun k => ?_, fun a => ?_, g5.trans h5, g6.trans h6⟩
  · rw [g1 k (h5 ▸ hk), h1 k hk]
  · rw [g2, h2]
  · rw [g3, h3]
  · rw [g4, h4]

theorem feedAll_append (u v : List Byte) (s : State) :
    feedAll (u ++ v) s =
      match feedAll u s with
      | .next t => feedAll v t
      | .fault r => .fault r
      | .refused r => .refused r := by
  induction u generalizing s with
  | nil => rfl
  | cons b u ih =>
    simp only [List.cons_append, feedAll]
    cases h : execPFeed b s with
    | next t => simpa using ih t
    | fault r => rfl
    | refused r => rfl

/-- Runs of bytes compose: the results follow one another. -/
theorem BytesTo.append {u v : List Byte} {s : State} {p q : ParserState} {rs qs : List FeedResult}
    (h : BytesTo u s p rs) (g : ∀ t, t.cur = s.cur → t.curParser = p → BytesTo v t q qs) :
    BytesTo (u ++ v) s q (rs ++ qs) := by
  obtain ⟨t, ht, hp, hd, ho⟩ := h
  have hc : t.cur = s.cur := ho.2.2.2.2.1
  obtain ⟨t', ht', hp', hd', ho'⟩ := g t hc (by rw [State.curParser, hc, hp])
  refine ⟨t', ?_, hc ▸ hp', ?_, ho.trans ho'⟩
  · rw [feedAll_append, ht]; exact ht'
  · rw [hd', hd, hc]; simp [feedDeliveries]

theorem BytesTo.nil (s : State) : BytesTo [] s s.curParser [] :=
  ⟨s, rfl, rfl, by simp [feedDeliveries], OnlyParser.refl s⟩

/-- One byte is one `P.FEED`. -/
theorem BytesTo.one {b : Byte} {s : State} {p : ParserState} {r : FeedResult} (h : FeedsTo (.pFeed b) s p r) :
    BytesTo [b] s p [r] := by
  obtain ⟨t, ht, hr⟩ := h
  refine ⟨t, ?_, hr⟩
  have ht : execPFeed b s = .next t := ht
  simp [feedAll, ht]

theorem BytesTo.cons {b : Byte} {v : List Byte} {s : State} {p q : ParserState} {r : FeedResult} {rs : List FeedResult}
    (h : FeedsTo (.pFeed b) s p r) (g : ∀ t, t.cur = s.cur → t.curParser = p → BytesTo v t q rs) :
    BytesTo (b :: v) s q (r :: rs) :=
  BytesTo.append (BytesTo.one h) g

end Sys2Proof.Machine
end

