-- ==== Sys2Proof/Laws/Feed.lean ====
section
/-! SUPPORT. `P.FEED` and `P.FEEDS` as functions of the addressed ParserState alone: the table of R176, once. Proofs about streams
reason about `feedPure` and carry the result to the machine by `execPFeed_eq` and `bytesTo_iff`. -/

namespace Sys2Proof.Machine

/-- R176 on one ParserState: the new ParserState and the result, or why the byte is refused. -/
def feedPure (p : ParserState) (b : Byte) : Except Refusal (ParserState × FeedResult) :=
  match p.stateId with
  | none => .error .unreachableControl
  | some .s0 => if b = syncByte then .ok ({ p with phase := .versionTag }, .noFrame) else .ok (p, .noFrame)
  | some .s1 =>
    if b = tagV1 then .ok ({ p with rev := .v1, phase := .direction }, .noFrame)
    else if b = tagV2 then .ok ({ p with rev := .v2, phase := .direction }, .noFrame)
    else .ok (ParserState.init, .err .invalidHeader)
  | some .s2 =>
    match dirOf b with
    | some d => .ok ({ p with dir := d, phase := .length }, .noFrame)
    | none => .ok (ParserState.init, .err .invalidDirection)
  | some .s3 =>
    match dirOf b with
    | some d => .ok ({ p with dir := d, phase := .flag }, .noFrame)
    | none => .ok (ParserState.init, .err .invalidDirection)
  | some .s4 => .ok ({ p with remaining := zext16 b, xorAcc := xorFold p.xorAcc b, phase := .command }, .noFrame)
  | some .s5 =>
    .ok ({ p with cmd := zext16 b, xorAcc := xorFold p.xorAcc b, phase := payloadOrChecksum p.remaining }, .noFrame)
  | some .s6 =>
    if p.remaining = 0 then .error .payloadComplete
    else if Config.pbufCap ≤ p.payload.length then .error .payloadOverCapacity
    else .ok ({ p.takePayload b with xorAcc := xorFold p.xorAcc b }, .noFrame)
  | some .s7 =>
    if b = p.xorAcc then .ok (ParserState.init, .frame p.assembled)
    else .ok (ParserState.init, .err (.checksumMismatch b p.xorAcc))
  | some .s8 => .ok ({ p with crcAcc := crcFold p.crcAcc b, phase := .command, idx := false }, .noFrame)
  | some .s9 => .ok ({ p with cmd := zext16 b, crcAcc := crcFold p.crcAcc b, idx := true }, .noFrame)
  | some .s10 =>
    .ok ({ p with cmd := joinBytes b (lowByte p.cmd), crcAcc := crcFold p.crcAcc b, idx := false, phase := .length },
      .noFrame)
  | some .s11 => .ok ({ p with remaining := zext16 b, crcAcc := crcFold p.crcAcc b, idx := true }, .noFrame)
  | some .s12 =>
    .ok ({ p with
        remaining := p.announced b, crcAcc := crcFold p.crcAcc b, idx := false,
        phase := payloadOrChecksum (p.announced b) }, .noFrame)
  | some .s13 =>
    if p.remaining = 0 then .error .payloadComplete
    else if Config.pbufCap ≤ p.payload.length then .error .payloadOverCapacity
    else .ok ({ p.takePayload b with crcAcc := crcFold p.crcAcc b }, .noFrame)
  | some .s14 =>
    if b = crcFinal p.crcAcc then .ok (ParserState.init, .frame p.assembled)
    else .ok (ParserState.init, .err (.checksumMismatch b (crcFinal p.crcAcc)))

/-- Write what a `P.FEED` leaves and deliver its result. -/
def State.feedOutcome (s : State) : Except Refusal (ParserState × FeedResult) → Host.Outcome State Fault Refusal
  | .ok (p, r) => .next ((s.setParser s.cur p).deliver (.feed r))
  | .error e => .refused e

theorem feedDirection_eq {s : State} (b : Byte) (h : s.inDirection = true) :
    feedDirection b s =
      match dirOf b with
      | some d => .next (s.advance (s.curParser.takeDirection d))
      | none => .next (s.raiseParse .invalidDirection) := by
  unfold feedDirection
  cases hb : dirOf b with
  | none => simp [execDirBad, h, hb]
  | some d => cases d <;> simp [execDirTo, execDirFrom, execDirUns, h]

/-- The capacity of the buffer is never below an announced length (R51, decision D19 at its default). -/
theorem announced_le_pbufCap (p : ParserState) (b : Byte) : ¬ Config.pbufCap < (p.announced b).toNat := by
  have := (p.announced b).isLt
  simp only [Config.pbufCap]; omega

/-- Everything a `P.FEED` can do. -/
theorem execPFeed_eq (b : Byte) (s : State) : execPFeed b s = s.feedOutcome (feedPure s.curParser b) := by
  unfold execPFeed feedPure
  cases h : s.curParser.stateId with
  | none => rfl
  | some i =>
    have hc := controlIs_eq h
    obtain ⟨h1, h2, h3⟩ := fields_of_stateId h
    cases i <;> dsimp only
    case s0 => split_ifs with hb <;> simp [execAsSync, execAsSkip, hc, hb, State.feedOutcome, State.advance]
    case s1 =>
      split_ifs with hb hb' <;>
        simp [execVtV1, execVtV2, execVtBad, State.feedOutcome, State.advance, State.raiseParse, *]
    case s2 =>
      have hd : s.inDirection = true := by simp [State.inDirection, hc]
      rw [feedDirection_eq b hd]
      cases dirOf b <;> simp [State.feedOutcome, State.advance, State.raiseParse, ParserState.takeDirection, h2, controlOf]
    case s3 =>
      have hd : s.inDirection = true := by simp [State.inDirection, hc]
      rw [feedDirection_eq b hd]
      cases dirOf b <;> simp [State.feedOutcome, State.advance, State.raiseParse, ParserState.takeDirection, h2, controlOf]
    case s4 => simp [execV1Len, hc, State.feedOutcome, State.advance]
    case s5 => simp [execV1Cmd, hc, State.feedOutcome, State.advance]
    case s6 =>
      simp only [execV1Pay, hc, decide_true, if_true, State.payloadStep]
      split_ifs <;> rfl
    case s7 =>
      simp only [execV1CkOk, execV1CkBad, hc]
      split_ifs with hb <;> simp [hb, State.feedOutcome, State.complete, State.raiseParse]
    case s8 => simp [execV2Flag, hc, State.feedOutcome, State.advance]
    case s9 => simp [execV2CmdLo, hc, State.feedOutcome, State.advance]
    case s10 => simp [execV2CmdHi, hc, State.feedOutcome, State.advance]
    case s11 => simp [execV2LenLo, hc, State.feedOutcome, State.advance]
    case s12 => simp [execV2LenHi, hc, announced_le_pbufCap, State.feedOutcome, State.advance]
    case s13 =>
      simp only [execV2Pay, hc, decide_true, if_true, State.payloadStep]
      split_ifs <;> rfl
    case s14 =>
      simp only [execV2CkOk, execV2CkBad, hc]
      split_ifs with hb <;> simp [hb, State.feedOutcome, State.complete, State.raiseParse]

/-- `P.FEEDS` on one ParserState. -/
def feedsPure (p : ParserState) : List Byte → Except Refusal (ParserState × List FeedResult)
  | [] => .ok (p, [])
  | b :: bs =>
    match feedPure p b with
    | .error e => .error e
    | .ok (q, r) =>
      match feedsPure q bs with
      | .error e => .error e
      | .ok (q', rs) => .ok (q', r :: rs)

theorem feedsPure_cons {p q q' : ParserState} {b : Byte} {r : FeedResult} {bs : List Byte} {rs : List FeedResult}
    (h : feedPure p b = .ok (q, r)) (g : feedsPure q bs = .ok (q', rs)) : feedsPure p (b :: bs) = .ok (q', r :: rs) := by
  simp [feedsPure, h, g]

theorem feedsPure_append {p q q' : ParserState} {u v : List Byte} {rs rs' : List FeedResult}
    (h : feedsPure p u = .ok (q, rs)) (g : feedsPure q v = .ok (q', rs')) :
    feedsPure p (u ++ v) = .ok (q', rs ++ rs') := by
  induction u generalizing p rs with
  | nil => cases h; simpa using g
  | cons b u ih =>
    simp only [List.cons_append, feedsPure] at h ⊢
    cases hb : feedPure p b with
    | error e => simp [hb] at h
    | ok x =>
      obtain ⟨p1, r⟩ := x
      simp only [hb] at h ⊢
      cases hu : feedsPure p1 u with
      | error e => simp [hu] at h
      | ok y =>
        obtain ⟨p2, rs1⟩ := y
        simp only [hu] at h
        cases h
        simp [ih hu]

theorem feedsTo_of_feedPure {s : State} {b : Byte} {p : ParserState} {r : FeedResult}
    (h : feedPure s.curParser b = .ok (p, r)) : FeedsTo (.pFeed b) s p r :=
  runsTo_set_deliver (by rw [show exec (.pFeed b) s = execPFeed b s from rfl, execPFeed_eq, h]; rfl)

/-- What the machine does with a sequence of bytes is what `feedsPure` does with the addressed ParserState. -/
theorem bytesTo_of_feedsPure {w : List Byte} {s : State} {p : ParserState} {rs : List FeedResult}
    (h : feedsPure s.curParser w = .ok (p, rs)) : BytesTo w s p rs := by
  induction w generalizing s rs with
  | nil => cases h; exact BytesTo.nil s
  | cons b w ih =>
    simp only [feedsPure] at h
    cases hb : feedPure s.curParser b with
    | error e => simp [hb] at h
    | ok x =>
      obtain ⟨p1, r⟩ := x
      simp only [hb] at h
      cases hw : feedsPure p1 w with
      | error e => simp [hw] at h
      | ok y =>
        obtain ⟨p2, rs1⟩ := y
        simp only [hw] at h
        cases h
        exact BytesTo.cons (feedsTo_of_feedPure hb) fun t _ ht => ih (by rw [ht]; exact hw)

/-- A sequence of bytes the machine refuses, it refuses for the reason `feedsPure` does. -/
theorem feedAll_of_feedsPure_error {w : List Byte} {s : State} {e : Refusal} (h : feedsPure s.curParser w = .error e) :
    feedAll w s = .refused e := by
  induction w generalizing s with
  | nil => cases h
  | cons b w ih =>
    simp only [feedsPure] at h
    simp only [feedAll, execPFeed_eq]
    cases hb : feedPure s.curParser b with
    | error e' => simp only [hb] at h; cases h; rfl
    | ok x =>
      obtain ⟨p1, r⟩ := x
      simp only [hb] at h
      cases hw : feedsPure p1 w with
      | error e' =>
        simp only [hw] at h
        cases h
        exact ih (by simpa [State.curParser] using hw)
      | ok y => simp [hw] at h

theorem runsTo_frameV1 {d c k : Byte} {p : List Byte} {s : State} {q : ParserState} {rs : List FeedResult} :
    RunsTo (.frameV1 d c p k) s q rs ↔ BytesTo (frameBytesV1 d c p k) s q rs := Iff.rfl

theorem runsTo_frameV2 {d f k : Byte} {c : Half} {p : List Byte} {s : State} {q : ParserState} {rs : List FeedResult} :
    RunsTo (.frameV2 d f c p k) s q rs ↔ BytesTo (frameBytesV2 d f c p k) s q rs := Iff.rfl

end Sys2Proof.Machine
end

