-- ==== Sys2Proof/Laws/Payload.lean ====
section
/-! SUPPORT. The payload loops of R168 and R169: one payload byte, and a run of them, on the addressed ParserState. -/

namespace Sys2Proof.Machine

theorem half_pred {r : Half} (h : 1 ≤ r.toNat) : (r - 1).toNat = r.toNat - 1 := by
  have := r.isLt
  simp; omega

/-- R168, R169: the phase after the decrement. -/
theorem payloadOrChecksum_pred {r : Half} (h : 1 ≤ r.toNat) :
    payloadOrChecksum (r - 1) = if r.toNat = 1 then .checksum else .payload := by
  have hr := half_pred h
  have : r - 1 = 0 ↔ r.toNat = 1 := by
    rw [← BitVec.toNat_inj, hr]; simp; omega
  simp only [payloadOrChecksum, this]

/-- Neither refusal of a payload byte arises while bytes remain and the buffer has a free location. -/
theorem payload_free {p : ParserState} (h1 : 1 ≤ p.remaining.toNat) (h2 : p.payload.length < 65535) :
    p.remaining ≠ 0 ∧ ¬ Config.pbufCap ≤ p.payload.length := by
  refine ⟨?_, ?_⟩
  · rintro h; simp [h] at h1
  · simp only [Config.pbufCap]; omega

/-- R168 on a ParserState. -/
theorem feedPure_payloadV1 {p : ParserState} (h : p.stateId = some .s6) (h1 : 1 ≤ p.remaining.toNat)
    (h2 : p.payload.length < 65535) (b : Byte) :
    feedPure p b = .ok ({ p with
      payload := p.payload ++ [b], remaining := p.remaining - 1, xorAcc := xorFold p.xorAcc b,
      phase := if p.remaining.toNat = 1 then .checksum else .payload }, .noFrame) := by
  obtain ⟨hr, hc⟩ := payload_free h1 h2
  simp only [feedPure, h, hr, hc, if_false, ParserState.takePayload, payloadOrChecksum_pred h1]

/-- R169 on a ParserState. -/
theorem feedPure_payloadV2 {p : ParserState} (h : p.stateId = some .s13) (h1 : 1 ≤ p.remaining.toNat)
    (h2 : p.payload.length < 65535) (b : Byte) :
    feedPure p b = .ok ({ p with
      payload := p.payload ++ [b], remaining := p.remaining - 1, crcAcc := crcFold p.crcAcc b,
      phase := if p.remaining.toNat = 1 then .checksum else .payload }, .noFrame) := by
  obtain ⟨hr, hc⟩ := payload_free h1 h2
  simp only [feedPure, h, hr, hc, if_false, ParserState.takePayload, payloadOrChecksum_pred h1]

theorem remaining_after {r : Half} {n : Nat} (h : n + 1 ≤ r.toNat) :
    (n = (r - 1).toNat) = (n + 1 = r.toNat) ∧ r - 1 - BitVec.ofNat 16 n = r - BitVec.ofNat 16 (n + 1) := by
  have hr := half_pred (r := r) (by omega)
  refine ⟨?_, ?_⟩
  · rw [hr]; exact propext ⟨fun h => by omega, fun h => by omega⟩
  · rw [BitVec.ofNat_add, BitVec.add_comm, ← BitVec.sub_sub]; rfl

/-- R168, repeated: a run of payload bytes no longer than what remains. -/
theorem feedsPure_payloadV1 {p : ParserState} {xs : List Byte} (h : p.stateId = some .s6) (h0 : xs ≠ [])
    (h1 : xs.length ≤ p.remaining.toNat) (h2 : p.payload.length + xs.length ≤ 65535) :
    feedsPure p xs = .ok ({ p with
      payload := p.payload ++ xs, remaining := p.remaining - BitVec.ofNat 16 xs.length, xorAcc := xorBulk p.xorAcc xs,
      phase := if xs.length = p.remaining.toNat then .checksum else .payload },
      List.replicate xs.length .noFrame) := by
  induction xs generalizing p with
  | nil => exact absurd rfl h0
  | cons b xs ih =>
    simp only [List.length_cons] at h1 h2
    have hs := feedPure_payloadV1 h (by omega) (by omega) b
    by_cases hx : xs = []
    · subst hx
      exact feedsPure_cons hs (by simp [feedsPure, eq_comm])
    · have hl : 0 < xs.length := List.length_pos_iff.2 hx
      have hne : p.remaining.toNat ≠ 1 := by omega
      simp only [hne, if_false] at hs
      obtain ⟨-, f2, f3⟩ := fields_of_stateId h
      obtain ⟨e1, e2⟩ := remaining_after h1
      have hi := ih
        (p := { p with
          payload := p.payload ++ [b], remaining := p.remaining - 1, xorAcc := xorFold p.xorAcc b, phase := .payload })
        (stateId_of_fields .s6 rfl f2 f3) hx (by dsimp only; rw [half_pred (by omega)]; omega) (by simp; omega)
      refine feedsPure_cons hs ?_
      rw [hi]
      simp only [e1, e2, List.append_assoc, List.singleton_append, List.length_cons, xorBulk_cons]

/-- R169, repeated: a run of payload bytes no longer than what remains. -/
theorem feedsPure_payloadV2 {p : ParserState} {xs : List Byte} (h : p.stateId = some .s13) (h0 : xs ≠ [])
    (h1 : xs.length ≤ p.remaining.toNat) (h2 : p.payload.length + xs.length ≤ 65535) :
    feedsPure p xs = .ok ({ p with
      payload := p.payload ++ xs, remaining := p.remaining - BitVec.ofNat 16 xs.length, crcAcc := crcBulk p.crcAcc xs,
      phase := if xs.length = p.remaining.toNat then .checksum else .payload },
      List.replicate xs.length .noFrame) := by
  induction xs generalizing p with
  | nil => exact absurd rfl h0
  | cons b xs ih =>
    simp only [List.length_cons] at h1 h2
    have hs := feedPure_payloadV2 h (by omega) (by omega) b
    by_cases hx : xs = []
    · subst hx
      exact feedsPure_cons hs (by simp [feedsPure, eq_comm])
    · have hl : 0 < xs.length := List.length_pos_iff.2 hx
      have hne : p.remaining.toNat ≠ 1 := by omega
      simp only [hne, if_false] at hs
      obtain ⟨-, f2, f3⟩ := fields_of_stateId h
      obtain ⟨e1, e2⟩ := remaining_after h1
      have hi := ih
        (p := { p with
          payload := p.payload ++ [b], remaining := p.remaining - 1, crcAcc := crcFold p.crcAcc b, phase := .payload })
        (stateId_of_fields .s13 rfl f2 f3) hx (by dsimp only; rw [half_pred (by omega)]; omega) (by simp; omega)
      refine feedsPure_cons hs ?_
      rw [hi]
      simp only [e1, e2, List.append_assoc, List.singleton_append, List.length_cons, crcBulk_cons]

end Sys2Proof.Machine
end

