-- ==== Sys2Proof/Laws/PerInstr.lean ====
section
/-! SUPPORT. The per-instruction family: which instructions the host presents as themselves (R82, R90). -/

namespace Sys2Proof.Laws.OperationEncoding

/-- R82: the operation rows, and only they, have no binary form: an instruction is presented as itself exactly when it is one of the
thirteen operations of R10. -/
def Statement (i : Instr) : Prop := encode i = .op i ↔ i.isOperation = true

theorem asSync : Statement .asSync := by simp [Statement, encode, Instr.isOperation]
theorem asSkip (b : Byte) : Statement (.asSkip b) := by simp [Statement, encode, Instr.isOperation]
theorem vtV1 : Statement .vtV1 := by simp [Statement, encode, Instr.isOperation]
theorem vtV2 : Statement .vtV2 := by simp [Statement, encode, Instr.isOperation]
theorem vtBad (b : Byte) : Statement (.vtBad b) := by simp [Statement, encode, Instr.isOperation]
theorem dirTo : Statement .dirTo := by simp [Statement, encode, Instr.isOperation]
theorem dirFrom : Statement .dirFrom := by simp [Statement, encode, Instr.isOperation]
theorem dirUns : Statement .dirUns := by simp [Statement, encode, Instr.isOperation]
theorem dirBad (b : Byte) : Statement (.dirBad b) := by simp [Statement, encode, Instr.isOperation]
theorem v1Len (n : Byte) : Statement (.v1Len n) := by simp [Statement, encode, Instr.isOperation]
theorem v1Cmd (c : Byte) : Statement (.v1Cmd c) := by simp [Statement, encode, Instr.isOperation]
theorem v1Pay (d : Byte) : Statement (.v1Pay d) := by simp [Statement, encode, Instr.isOperation]
theorem v1CkOk (k : Byte) : Statement (.v1CkOk k) := by simp [Statement, encode, Instr.isOperation]
theorem v1CkBad (k : Byte) : Statement (.v1CkBad k) := by simp [Statement, encode, Instr.isOperation]
theorem v2Flag (f : Byte) : Statement (.v2Flag f) := by simp [Statement, encode, Instr.isOperation]
theorem v2CmdLo (c : Byte) : Statement (.v2CmdLo c) := by simp [Statement, encode, Instr.isOperation]
theorem v2CmdHi (c : Byte) : Statement (.v2CmdHi c) := by simp [Statement, encode, Instr.isOperation]
theorem v2LenLo (n : Byte) : Statement (.v2LenLo n) := by simp [Statement, encode, Instr.isOperation]
theorem v2LenHi (n : Byte) : Statement (.v2LenHi n) := by simp [Statement, encode, Instr.isOperation]
theorem v2Pay (d : Byte) : Statement (.v2Pay d) := by simp [Statement, encode, Instr.isOperation]
theorem v2CkOk (k : Byte) : Statement (.v2CkOk k) := by simp [Statement, encode, Instr.isOperation]
theorem v2CkBad (k : Byte) : Statement (.v2CkBad k) := by simp [Statement, encode, Instr.isOperation]
theorem frameV1 (d : Byte) (c : Byte) (p : List Byte) (k : Byte) : Statement (.frameV1 d c p k) := by simp [Statement, encode, Instr.isOperation]
theorem frameV2 (d : Byte) (f : Byte) (c : Half) (p : List Byte) (k : Byte) : Statement (.frameV2 d f c p k) := by simp [Statement, encode, Instr.isOperation]
theorem xorReset : Statement .xorReset := by simp [Statement, encode, Instr.isOperation]
theorem xorUpdate (b : Byte) : Statement (.xorUpdate b) := by simp [Statement, encode, Instr.isOperation]
theorem xorUpdateBulk (bs : List Byte) : Statement (.xorUpdateBulk bs) := by simp [Statement, encode, Instr.isOperation]
theorem xorValue : Statement .xorValue := by simp [Statement, encode, Instr.isOperation]
theorem crc8Reset : Statement .crc8Reset := by simp [Statement, encode, Instr.isOperation]
theorem crc8Update (b : Byte) : Statement (.crc8Update b) := by simp [Statement, encode, Instr.isOperation]
theorem crc8UpdateBulk (bs : List Byte) : Statement (.crc8UpdateBulk bs) := by simp [Statement, encode, Instr.isOperation]
theorem crc8Finalize : Statement .crc8Finalize := by simp [Statement, encode, Instr.isOperation]
theorem frameSize (f : Frame) (rev : Revision) : Statement (.frameSize f rev) := by simp [Statement, encode, Instr.isOperation]
theorem serV1 (f : Frame) (n : Nat) : Statement (.serV1 f n) := by simp [Statement, encode, Instr.isOperation]
theorem serV2 (f : Frame) (n : Nat) : Statement (.serV2 f n) := by simp [Statement, encode, Instr.isOperation]
theorem pReset : Statement .pReset := by simp [Statement, encode, Instr.isOperation]
theorem pFeed (b : Byte) : Statement (.pFeed b) := by simp [Statement, encode, Instr.isOperation]

end Sys2Proof.Laws.OperationEncoding
end

