-- ==== Sys2Proof/Laws/Serializer.lean ====
section
/-! SUPPORT. What the serializer does, said once: its outcome, its frame, and its bytes as the bytes of a frame row. -/

namespace Sys2Proof.Machine

theorem execSerV1_eq {f : Frame} (h : f.payload.length ≤ 255) (n : Nat) (s : State) :
    execSerV1 f n s = .next (s.serialize (6 + f.payload.length) n (serBytesV1 f)) := by
  have : ¬ Config.payloadMaxV1 < f.payload.length := by simpa [Config.payloadMaxV1] using h
  simp [execSerV1, this, Config.v1CmdStrict, wireSize, Config.overheadV1]

theorem execSerV2_eq {f : Frame} (h : f.payload.length ≤ 65535) (n : Nat) (s : State) :
    execSerV2 f n s = .next (s.serialize (9 + f.payload.length) n (serBytesV2 f)) := by
  have : ¬ Config.payloadMaxV2 < f.payload.length := by simpa [Config.payloadMaxV2] using h
  simp [execSerV2, this, wireSize, Config.overheadV2]

theorem execSerV1_over {f : Frame} (h : 255 < f.payload.length) (n : Nat) (s : State) :
    execSerV1 f n s = .refused .payloadOverV1Limit := by
  have : Config.payloadMaxV1 < f.payload.length := h
  simp [execSerV1, this]

theorem execSerV2_over {f : Frame} (h : 65535 < f.payload.length) (n : Nat) (s : State) :
    execSerV2 f n s = .refused .notAFrame := by
  have : Config.payloadMaxV2 < f.payload.length := h
  simp [execSerV2, this]

/-- R46: a serialize call changes no register and no line of the trace. -/
theorem serialize_registersSame (s : State) (size n : Nat) (bs : List Byte) :
    RegistersSame s (s.serialize size n bs) := by
  refine ⟨fun k => ?_, fun k => ?_, fun k => ?_, by simp, by simp⟩
  · simp [State.parser]
  · simp [State.xorReg]
  · simp [State.crcReg]

/-- R52: what the destination reads as after a call of the exact length. -/
theorem serialize_dst_read (s : State) (n : Nat) (bs : List Byte) (a : Nat) :
    (s.serialize n n bs).dst.read a = if a < bs.length then bs[a]? else s.dst.read a := by
  rw [serialize_eq]
  show (Memory.writeAll s.dst 0 bs).read a = _
  rw [Memory.read_writeAll]
  simp

theorem serBytesV1_length (f : Frame) : (serBytesV1 f).length = 6 + f.payload.length := by
  simp [serBytesV1]; omega

theorem serBytesV2_length (f : Frame) : (serBytesV2 f).length = 9 + f.payload.length := by
  simp [serBytesV2, serBodyV2]; omega

theorem dirOf_dirByte (d : Direction) : dirOf (dirByte d) = some d := by cases d <;> rfl

/-- R106: the seeded fold of R134 is the XOR over length, command and payload. -/
theorem serBytesV1_eq (f : Frame) :
    serBytesV1 f = frameBytesV1 (dirByte f.direction) (lowByte f.command) f.payload
      (xorSum (coveredV1 (lowByte f.command) f.payload)) := by
  simp [serBytesV1, frameBytesV1, coveredV1, xorSum, xorFold, xorInit]

/-- R118 with flag 0. -/
theorem serBytesV2_eq (f : Frame) :
    serBytesV2 f = frameBytesV2 (dirByte f.direction) 0x00 f.command f.payload
      (crcSum (coveredV2 0x00 f.command f.payload)) := by
  simp [serBytesV2, serBodyV2, frameBytesV2, coveredV2]

end Sys2Proof.Machine
end

