-- ==== Sys2Proof/Tests/Slice0.lean ====
section
/-! SUPPORT. Tests of this model. Expected values are taken from spec/95_test_vectors.md (ids in the names or comments) and from the rules named;
the witnesses at the end show, for every obligation with hypotheses, states and operands that meet them. -/

namespace Sys2Proof.Tests

open Sys2Proof Sys2Proof.Machine

/-! ### Helpers -/

/-- A machine whose parser 0 is `p`, with everything else as after reset. -/
def withParser (p : ParserState) : State := { State.reset with parsers := [(0, p)] }

/-- Parser 0 and the results, after a next state. -/
def seen (o : Host.Outcome State Fault Refusal) : Option (ParserState × List Result) :=
  match o with
  | .next t => some (t.parser 0, t.delivered.map fun d => d.result)
  | .fault _ => none
  | .refused _ => none

/-- The registers of stand-alone accumulators 0, and the results, after a next state. -/
def accs (o : Host.Outcome State Fault Refusal) : Option (Byte × Byte × List Result) :=
  match o with
  | .next t => some (t.xorReg 0, t.crcReg 0, t.delivered.map fun d => d.result)
  | .fault _ => none
  | .refused _ => none

/-- The destination memory, and the results, after a next state. -/
def written (o : Host.Outcome State Fault Refusal) : Option (Memory × List Result) :=
  match o with
  | .next t => some (t.dst, t.delivered.map fun d => d.result)
  | .fault _ => none
  | .refused _ => none

/-- Why the machine stopped. -/
def why (o : Host.Outcome State Fault Refusal) : Option Refusal :=
  match o with
  | .next _ => none
  | .fault r => nomatch r
  | .refused r => some r

def i0 : ParserState := ParserState.init
def p1 : ParserState := { i0 with phase := .versionTag }
def p2 : ParserState := { i0 with phase := .direction, rev := .v1 }
def p3 : ParserState := { i0 with phase := .direction, rev := .v2 }
def p4 : ParserState := { i0 with phase := .length, rev := .v1 }
def p5 : ParserState := { i0 with phase := .command, rev := .v1, remaining := 2, xorAcc := 0x02 }
def p5z : ParserState := { i0 with phase := .command, rev := .v1 }
def p6 : ParserState :=
  { i0 with phase := .payload, rev := .v1, cmd := 2, remaining := 1, payload := [0xBE], xorAcc := 0xBE }
def p7 : ParserState :=
  { i0 with phase := .checksum, rev := .v1, cmd := 2, payload := [0xBE, 0xEF], xorAcc := 0x51 }
def p8 : ParserState := { i0 with phase := .flag, rev := .v2 }
def p9 : ParserState := { i0 with phase := .command, rev := .v2 }
def p10 : ParserState := { i0 with phase := .command, rev := .v2, idx := true, cmd := 3, crcAcc := 0xAA }
def p11 : ParserState := { i0 with phase := .length, rev := .v2, cmd := 0x0203, crcAcc := 0x62 }
def p12 : ParserState :=
  { i0 with phase := .length, rev := .v2, idx := true, cmd := 0x0203, remaining := 4, crcAcc := 0xB8 }
def p13 : ParserState :=
  { i0 with
    phase := .payload, rev := .v2, cmd := 0x0203, remaining := 1, payload := [0x44, 0x20, 0x00], crcAcc := 0x89 }
def p14 : ParserState :=
  { i0 with phase := .checksum, rev := .v2, cmd := 0x0203, payload := [0x44, 0x20, 0x00, 0x80], crcAcc := 0xFC }

/-- The Frame of E1 and the Frame of E4. -/
def frameE1 : Frame := ⟨2, .toController, [0xBE, 0xEF]⟩
def frameE4 : Frame := ⟨515, .toController, [0x44, 0x20, 0x00, 0x80]⟩
def bytesE1 : List Byte := [0x24, 0x4D, 0x3C, 0x02, 0x02, 0xBE, 0xEF, 0x51]
def bytesE4 : List Byte := [0x24, 0x58, 0x3C, 0x00, 0x03, 0x02, 0x04, 0x00, 0x44, 0x20, 0x00, 0x80, 0xFC]

/-! ### Well-formedness: one ill-formed term for each check -/

theorem test_wf_asSkip_of_sync : (Instr.asSkip 0x24).wf = false := by decide
theorem test_wf_vtBad_of_tags : (Instr.vtBad 0x4D).wf = false ∧ (Instr.vtBad 0x58).wf = false := by decide
theorem test_wf_dirBad_of_directions :
    (Instr.dirBad 0x3C).wf = false ∧ (Instr.dirBad 0x3E).wf = false ∧ (Instr.dirBad 0x21).wf = false := by decide
theorem test_wf_frameV1_payload_too_long (d c k : Byte) : (Instr.frameV1 d c (List.replicate 256 0) k).fits = false := by
  simp only [Instr.fits, Config.payloadMaxV1, List.length_replicate]; rfl
theorem test_wf_frameV2_payload_too_long (d f k : Byte) (c : Half) :
    (Instr.frameV2 d f c (List.replicate 65536 0) k).fits = false := by
  simp only [Instr.fits, Config.payloadMaxV2, List.length_replicate]; rfl
theorem test_wf_frameV1_illegal_values :
    (Instr.frameV1 0x3D 0x64 [] 0x64).wf = false ∧ (Instr.frameV1 0x3C 0x64 [] 0x65).wf = false := by decide
theorem test_wf_frameV2_illegal_values :
    (Instr.frameV2 0x3D 0x00 515 [] 0x1C).wf = false ∧ (Instr.frameV2 0x3C 0xA5 515 [] 0x1C).wf = false := by decide +kernel
theorem test_wf_operand_frame_too_long (n : Nat) :
    (Instr.serV1 ⟨0, .toController, List.replicate 65536 0⟩ n).wf = false ∧
    (Instr.serV2 ⟨0, .toController, List.replicate 65536 0⟩ n).wf = false ∧
    (Instr.frameSize ⟨0, .toController, List.replicate 65536 0⟩ .v2).wf = false := by
  refine ⟨?_, ?_, ?_⟩ <;>
    simp only [Instr.wf, Instr.fits, Instr.legal, Frame.fits, Config.payloadMaxV2, List.length_replicate] <;> rfl
/-- E1 and E4 are well formed; every check of R88 refuses a frame that breaks it alone. -/
theorem test_wf_whole_frames : isV1Frame bytesE1 = true ∧ isV2Frame bytesE4 = true ∧
    (Instr.frameV1 0x3C 0x02 [0xBE, 0xEF] 0x51).wf = true ∧
    (Instr.frameV2 0x3C 0x00 515 [0x44, 0x20, 0x00, 0x80] 0xFC).wf = true := by decide +kernel
theorem test_wf_v1_frame_checks :
    isV1Frame [0x24, 0x4D, 0x3C, 0x00, 0x64] = false ∧ isV1Frame [0x25, 0x4D, 0x3C, 0x00, 0x64, 0x64] = false ∧
    isV1Frame [0x24, 0x58, 0x3C, 0x00, 0x64, 0x64] = false ∧ isV1Frame [0x24, 0x4D, 0x3D, 0x00, 0x64, 0x64] = false ∧
    isV1Frame [0x24, 0x4D, 0x3C, 0x01, 0x64, 0x65] = false ∧ isV1Frame [0x24, 0x4D, 0x3C, 0x00, 0x64, 0x65] = false := by decide
theorem test_wf_v2_frame_checks :
    isV2Frame [0x24, 0x58, 0x21, 0x00, 0x64, 0x00, 0x00, 0x00] = false ∧
    isV2Frame [0x25, 0x58, 0x21, 0x00, 0x64, 0x00, 0x00, 0x00, 0x8F] = false ∧
    isV2Frame [0x24, 0x4D, 0x21, 0x00, 0x64, 0x00, 0x00, 0x00, 0x8F] = false ∧
    isV2Frame [0x24, 0x58, 0x20, 0x00, 0x64, 0x00, 0x00, 0x00, 0x8F] = false ∧
    isV2Frame [0x24, 0x58, 0x21, 0x00, 0x64, 0x00, 0x01, 0x00, 0x8F] = false ∧
    isV2Frame [0x24, 0x58, 0x21, 0x00, 0x64, 0x00, 0x00, 0x00, 0x8E] = false := by decide +kernel

/-! ### Decoding: every constructor's word, written out from R71, R72, R73 and R81 -/

theorem test_decode_header_bytes :
    decodeByte ⟨.s0, 0, 0⟩ 0b00100100 = some .asSync ∧ decodeByte ⟨.s0, 0, 0⟩ 0b01001101 = some (.asSkip 0x4D) ∧
    decodeByte ⟨.s1, 0, 0⟩ 0b01001101 = some .vtV1 ∧ decodeByte ⟨.s1, 0, 0⟩ 0b01011000 = some .vtV2 ∧
    decodeByte ⟨.s1, 0, 0⟩ 0b00100100 = some (.vtBad 0x24) := by decide
theorem test_decode_direction_bytes :
    decodeByte ⟨.s2, 0, 0⟩ 0b00111100 = some .dirTo ∧ decodeByte ⟨.s3, 0, 0⟩ 0b00111110 = some .dirFrom ∧
    decodeByte ⟨.s2, 0, 0⟩ 0b00100001 = some .dirUns ∧ decodeByte ⟨.s3, 0, 0⟩ 0b00111101 = some (.dirBad 0x3D) := by decide
theorem test_decode_v1_bytes :
    decodeByte ⟨.s4, 0, 0⟩ 0b11111111 = some (.v1Len 0xFF) ∧ decodeByte ⟨.s5, 0, 0⟩ 0b01100100 = some (.v1Cmd 0x64) ∧
    decodeByte ⟨.s6, 0, 0⟩ 0b00100100 = some (.v1Pay 0x24) ∧
    decodeByte ⟨.s7, 0x51, 0⟩ 0b01010001 = some (.v1CkOk 0x51) ∧
    decodeByte ⟨.s7, 0x51, 0⟩ 0b10101110 = some (.v1CkBad 0xAE) := by decide
theorem test_decode_v2_bytes :
    decodeByte ⟨.s8, 0, 0⟩ 0b10100101 = some (.v2Flag 0xA5) ∧ decodeByte ⟨.s9, 0, 0⟩ 0b00000011 = some (.v2CmdLo 0x03) ∧
    decodeByte ⟨.s10, 0, 0⟩ 0b00000010 = some (.v2CmdHi 0x02) ∧ decodeByte ⟨.s11, 0, 0⟩ 0b00000100 = some (.v2LenLo 0x04) ∧
    decodeByte ⟨.s12, 0, 0⟩ 0b00000000 = some (.v2LenHi 0x00) ∧ decodeByte ⟨.s13, 0, 0⟩ 0b00100100 = some (.v2Pay 0x24) := by
  decide
theorem test_decode_v2_checksum_bytes :
    decodeByte ⟨.s14, 0x24, 0xFC⟩ 0b11111100 = some (.v2CkOk 0xFC) ∧
    decodeByte ⟨.s14, 0x24, 0xFC⟩ 0b00100100 = some (.v2CkBad 0x24) := by decide
theorem test_decode_frame_v1 : decodeFrame (bytesE1 ++ [0x24]) = some (.frameV1 0x3C 0x02 [0xBE, 0xEF] 0x51, [0x24]) := by
  decide
theorem test_decode_frame_v2 :
    decodeFrame bytesE4 = some (.frameV2 0x3C 0x00 515 [0x44, 0x20, 0x00, 0x80] 0xFC, []) := by decide
theorem test_decode_cut_or_foreign_bytes_are_no_frame :
    decodeFrame [0x24, 0x4D, 0x3C, 0x02, 0x02, 0xBE, 0xEF] = none ∧ decodeFrame [0x24, 0x24, 0x4D] = none ∧
    decodeFrame [0x4D, 0x24] = none ∧ decodeFrame [] = none := by decide
/-- R82, R90: the thirteen operations have no binary form and stand in a trace as themselves. -/
theorem test_decode_accumulator_operations :
    (decode none (.op .xorReset)).toOption = some (.xorReset, []) ∧
    (decode none (.op (.xorUpdate 0x5A))).toOption = some (.xorUpdate 0x5A, []) ∧
    (decode none (.op (.xorUpdateBulk [1, 2]))).toOption = some (.xorUpdateBulk [1, 2], []) ∧
    (decode none (.op .xorValue)).toOption = some (.xorValue, []) ∧
    (decode none (.op .crc8Reset)).toOption = some (.crc8Reset, []) ∧
    (decode none (.op (.crc8Update 0x5A))).toOption = some (.crc8Update 0x5A, []) ∧
    (decode none (.op (.crc8UpdateBulk [1, 2]))).toOption = some (.crc8UpdateBulk [1, 2], []) ∧
    (decode none (.op .crc8Finalize)).toOption = some (.crc8Finalize, []) := by decide
theorem test_decode_frame_and_parser_operations :
    (decode none (.op (.frameSize frameE1 .v1))).toOption = some (.frameSize frameE1 .v1, []) ∧
    (decode none (.op (.serV1 frameE1 8))).toOption = some (.serV1 frameE1 8, []) ∧
    (decode none (.op (.serV2 frameE4 13))).toOption = some (.serV2 frameE4 13, []) ∧
    (decode none (.op .pReset)).toOption = some (.pReset, []) ∧
    (decode none (.op (.pFeed 0x24))).toOption = some (.pFeed 0x24, []) := by decide
theorem test_decode_refuses_a_byte_row_in_a_trace :
    decode none (.op .asSync) = .error .notAnOperation ∧ decode none (.byte 0x24) = .error .unreachableControl := ⟨rfl, rfl⟩

/-! ### Table words, and a step that runs them right after reset -/

theorem test_table_words :
    decodeTableWord 8 0x24 = some .asSync ∧ decodeTableWord 8 0x4D = some .vtV1 ∧ decodeTableWord 8 0x58 = some .vtV2 ∧
    decodeTableWord 8 0x3C = some .dirTo ∧ decodeTableWord 8 0x3E = some .dirFrom ∧ decodeTableWord 8 0x21 = some .dirUns ∧
    decodeTableWord 8 0x00 = some (.asSkip 0x00) := by decide
theorem test_table_frame_words :
    decodeTableWord 16 0x244D = some (.frameV1 0 0 [] 0) ∧ decodeTableWord 16 0x2458 = some (.frameV2 0 0 0 [] 0) ∧
    decodeTableWord 16 0x2424 = none := by decide
theorem test_step_runs_a_table_byte :
    seen (step (State.reset.withFetchWord 8 0x24)) = some (p1, [.feed .noFrame]) ∧
    seen (step (State.reset.withFetchWord 8 0x58)) = some (p3, [.feed .noFrame]) ∧
    seen (step (State.reset.withFetchWord 8 0x21)) = some ({ p4 with dir := .unsupported }, [.feed .noFrame]) := by decide
/-- A frame of zeros has no direction byte: the third byte is `InvalidDirection`, and the rest is skipped. -/
theorem test_step_runs_a_table_frame :
    seen (step (State.reset.withFetchWord 16 0x244D)) =
      some (i0, [.feed .noFrame, .feed .noFrame, .feed (.err .invalidDirection), .feed .noFrame, .feed .noFrame,
        .feed .noFrame]) := by decide
theorem test_step_is_idle_after_reset : seen (step State.reset) = some (i0, []) := by decide
theorem test_step_expands_a_burst :
    (match step { State.reset with pending := [⟨3, .burst [0x00, 0x24]⟩] } with
      | .next t => t.pending
      | _ => []) = [⟨3, .byte 0x00⟩, ⟨3, .byte 0x24⟩] := by decide

/-! ### The accumulators (vectors X and K) -/

theorem test_xorReset_X9 : accs (exec .xorReset { State.reset with xorAccs := [(0, 0x51)] }) = some (0x00, 0x00, []) := by decide
theorem test_xorUpdate_X2_X3 :
    accs (exec (.xorUpdate 0x5A) { State.reset with xorAccs := [(0, 0x5A)] }) = some (0x00, 0x00, []) ∧
    accs (exec (.xorUpdate 0xFF) { State.reset with xorAccs := [(0, 0x5A)] }) = some (0xA5, 0x00, []) := by decide
theorem test_xorUpdateBulk_X6_X11 :
    accs (exec (.xorUpdateBulk [0x02, 0x02, 0xBE, 0xEF]) State.reset) = some (0x51, 0x00, []) ∧
    accs (exec (.xorUpdateBulk [0x03, 0x24, 0x24, 0x4D, 0x3C]) State.reset) = some (0x72, 0x00, []) := by decide
theorem test_xorValue_X8 :
    accs (exec .xorValue { State.reset with xorAccs := [(0, 0x51)] }) = some (0x51, 0x00, [.xorValue 0x51]) := by decide
theorem test_crc8Reset_K20 : accs (exec .crc8Reset { State.reset with crcAccs := [(0, 0xFC)] }) = some (0x00, 0x00, []) := by
  decide
theorem test_crc8Update_K2_to_K8 :
    accs (exec (.crc8Update 0x01) State.reset) = some (0x00, 0xD5, []) ∧
    accs (exec (.crc8Update 0x80) State.reset) = some (0x00, 0xEF, []) ∧
    accs (exec (.crc8Update 0xAA) { State.reset with crcAccs := [(0, 0xAA)] }) = some (0x00, 0x00, []) ∧
    accs (exec (.crc8Update 0x02) { State.reset with crcAccs := [(0, 0xAA)] }) = some (0x00, 0x62, []) := by decide
theorem test_crc8UpdateBulk_K10_K11 :
    accs (exec (.crc8UpdateBulk [0x31, 0x32, 0x33, 0x34, 0x35, 0x36, 0x37, 0x38, 0x39]) State.reset) =
      some (0x00, 0xBC, []) ∧
    accs (exec (.crc8UpdateBulk [0x00, 0x03, 0x02, 0x04, 0x00, 0x44, 0x20, 0x00, 0x80]) State.reset) =
      some (0x00, 0xFC, []) := by decide +kernel
theorem test_crc8UpdateBulk_K14_K18 :
    accs (exec (.crc8UpdateBulk [0x00, 0x03, 0x02, 0x04, 0x00, 0x44, 0x20, 0x00, 0x80, 0xFC]) State.reset) =
      some (0x00, 0x00, []) ∧
    accs (exec (.crc8UpdateBulk [0xA5, 0x03, 0x02, 0x00, 0x00]) State.reset) = some (0x00, 0x52, []) := by decide +kernel
theorem test_crc8Finalize_K21 :
    accs (exec .crc8Finalize { State.reset with crcAccs := [(0, 0xFC)] }) = some (0x00, 0xFC, [.crcValue 0xFC]) := by decide
/-- R117, rows 00 to 30. -/
theorem test_crc_table_0 :
    (crcTable.drop 0).take 64 =
      [0x00, 0xD5, 0x7F, 0xAA, 0xFE, 0x2B, 0x81, 0x54, 0x29, 0xFC, 0x56, 0x83, 0xD7, 0x02, 0xA8, 0x7D] ++
      [0x52, 0x87, 0x2D, 0xF8, 0xAC, 0x79, 0xD3, 0x06, 0x7B, 0xAE, 0x04, 0xD1, 0x85, 0x50, 0xFA, 0x2F] ++
      [0xA4, 0x71, 0xDB, 0x0E, 0x5A, 0x8F, 0x25, 0xF0, 0x8D, 0x58, 0xF2, 0x27, 0x73, 0xA6, 0x0C, 0xD9] ++
      [0xF6, 0x23, 0x89, 0x5C, 0x08, 0xDD, 0x77, 0xA2, 0xDF, 0x0A, 0xA0, 0x75, 0x21, 0xF4, 0x5E, 0x8B] := by decide +kernel
/-- R117, rows 40 to 70. -/
theorem test_crc_table_1 :
    (crcTable.drop 64).take 64 =
      [0x9D, 0x48, 0xE2, 0x37, 0x63, 0xB6, 0x1C, 0xC9, 0xB4, 0x61, 0xCB, 0x1E, 0x4A, 0x9F, 0x35, 0xE0] ++
      [0xCF, 0x1A, 0xB0, 0x65, 0x31, 0xE4, 0x4E, 0x9B, 0xE6, 0x33, 0x99, 0x4C, 0x18, 0xCD, 0x67, 0xB2] ++
      [0x39, 0xEC, 0x46, 0x93, 0xC7, 0x12, 0xB8, 0x6D, 0x10, 0xC5, 0x6F, 0xBA, 0xEE, 0x3B, 0x91, 0x44] ++
      [0x6B, 0xBE, 0x14, 0xC1, 0x95, 0x40, 0xEA, 0x3F, 0x42, 0x97, 0x3D, 0xE8, 0xBC, 0x69, 0xC3, 0x16] := by decide +kernel
/-- R117, rows 80 to B0. -/
theorem test_crc_table_2 :
    (crcTable.drop 128).take 64 =
      [0xEF, 0x3A, 0x90, 0x45, 0x11, 0xC4, 0x6E, 0xBB, 0xC6, 0x13, 0xB9, 0x6C, 0x38, 0xED, 0x47, 0x92] ++
      [0xBD, 0x68, 0xC2, 0x17, 0x43, 0x96, 0x3C, 0xE9, 0x94, 0x41, 0xEB, 0x3E, 0x6A, 0xBF, 0x15, 0xC0] ++
      [0x4B, 0x9E, 0x34, 0xE1, 0xB5, 0x60, 0xCA, 0x1F, 0x62, 0xB7, 0x1D, 0xC8, 0x9C, 0x49, 0xE3, 0x36] ++
      [0x19, 0xCC, 0x66, 0xB3, 0xE7, 0x32, 0x98, 0x4D, 0x30, 0xE5, 0x4F, 0x9A, 0xCE, 0x1B, 0xB1, 0x64] := by decide +kernel
/-- R117, rows C0 to F0. -/
theorem test_crc_table_3 :
    (crcTable.drop 192).take 64 =
      [0x72, 0xA7, 0x0D, 0xD8, 0x8C, 0x59, 0xF3, 0x26, 0x5B, 0x8E, 0x24, 0xF1, 0xA5, 0x70, 0xDA, 0x0F] ++
      [0x20, 0xF5, 0x5F, 0x8A, 0xDE, 0x0B, 0xA1, 0x74, 0x09, 0xDC, 0x76, 0xA3, 0xF7, 0x22, 0x88, 0x5D] ++
      [0xD6, 0x03, 0xA9, 0x7C, 0x28, 0xFD, 0x57, 0x82, 0xFF, 0x2A, 0x80, 0x55, 0x01, 0xD4, 0x7E, 0xAB] ++
      [0x84, 0x51, 0xFB, 0x2E, 0x7A, 0xAF, 0x05, 0xD0, 0xAD, 0x78, 0xD2, 0x07, 0x53, 0x86, 0x2C, 0xF9] := by decide +kernel

/-! ### Frame sizes and the serializer (vectors Z, A and B) -/

theorem test_frameSize_Z2 :
    written (exec (.frameSize frameE1 .v1) State.reset) = some ([], [.size 8]) ∧
    written (exec (.frameSize frameE1 .v2) State.reset) = some ([], [.size 11]) := by decide
/-- Z4 and Z6: 255 bytes under V1, 65535 under V2, never truncated. -/
theorem test_frameSize_Z4_Z6 (d : Direction) (c : Half) :
    wireSize ⟨c, d, List.replicate 255 0⟩ .v1 = 261 ∧ wireSize ⟨c, d, List.replicate 65535 0⟩ .v2 = 65544 := by
  constructor <;> simp only [wireSize, Config.overheadV1, Config.overheadV2, List.length_replicate]
theorem test_serV1_A1 :
    written (exec (.serV1 frameE1 8) State.reset) =
      some ([(0, 0x24), (1, 0x4D), (2, 0x3C), (3, 0x02), (4, 0x02), (5, 0xBE), (6, 0xEF), (7, 0x51)],
        [.ser (.ok [0x24, 0x4D, 0x3C, 0x02, 0x02, 0xBE, 0xEF, 0x51])]) := by decide
theorem test_serV1_A4_A9 :
    (written (exec (.serV1 ⟨0x1FF, .fromController, [0x01]⟩ 7) State.reset)).map (fun r => r.2) =
      some [.ser (.ok [0x24, 0x4D, 0x3E, 0x01, 0xFF, 0x01, 0xFF])] ∧
    written (exec (.serV1 frameE1 7) State.reset) = some ([], [.ser .sizeMismatch]) := by decide
/-- A12 and A13: the refusal comes before the size check. -/
theorem test_serV1_A13 :
    exec (.serV1 ⟨1, .toController, List.replicate 256 0⟩ 0) State.reset = .refused .payloadOverV1Limit :=
  execSerV1_over (by simp only [List.length_replicate]; decide) 0 _
theorem test_serV2_B1_B11 :
    (written (exec (.serV2 frameE4 13) State.reset)).map (fun r => r.2) = some [.ser (.ok bytesE4)] ∧
    written (exec (.serV2 frameE4 12) State.reset) = some ([], [.ser .sizeMismatch]) := by decide +kernel
theorem test_serV2_B7 :
    (written (exec (.serV2 ⟨8000, .fromController, [0x10, 0x27]⟩ 11) State.reset)).map (fun r => r.2) =
      some [.ser (.ok [0x24, 0x58, 0x3E, 0x00, 0x40, 0x1F, 0x02, 0x00, 0x10, 0x27, 0x3F])] := by decide +kernel
theorem test_reset_memory_wf : Memory.wf State.reset.dst = true := by decide

/-! ### The parser (vectors V) -/

theorem test_asSync_V3 : seen (exec .asSync State.reset) = some (p1, [.feed .noFrame]) := by decide
theorem test_asSkip_V2 : seen (exec (.asSkip 0x4D) State.reset) = some (i0, [.feed .noFrame]) := by decide
theorem test_vtV1_V4 : seen (exec .vtV1 (withParser p1)) = some (p2, [.feed .noFrame]) := by decide
theorem test_vtV2_V5 : seen (exec .vtV2 (withParser p1)) = some (p3, [.feed .noFrame]) := by decide
theorem test_vtBad_V7 : seen (exec (.vtBad 0x24) (withParser p1)) = some (i0, [.feed (.err .invalidHeader)]) := by decide
theorem test_dirTo_V9_V10 :
    seen (exec .dirTo (withParser p2)) = some (p4, [.feed .noFrame]) ∧
    seen (exec .dirTo (withParser p3)) = some (p8, [.feed .noFrame]) := by decide
theorem test_dirFrom_V11 :
    seen (exec .dirFrom (withParser p2)) = some ({ p4 with dir := .fromController }, [.feed .noFrame]) := by decide
theorem test_dirUns_V12 :
    seen (exec .dirUns (withParser p3)) = some ({ p8 with dir := .unsupported }, [.feed .noFrame]) := by decide
theorem test_dirBad_V13_V14 :
    seen (exec (.dirBad 0x3D) (withParser p3)) = some (i0, [.feed (.err .invalidDirection)]) ∧
    seen (exec (.dirBad 0x24) (withParser p2)) = some (i0, [.feed (.err .invalidDirection)]) := by decide
theorem test_v1Len_V16 :
    seen (exec (.v1Len 0xFF) (withParser p4)) =
      some ({ p5 with remaining := 255, xorAcc := 0xFF }, [.feed .noFrame]) := by decide
theorem test_v1Cmd_V17_V18 :
    seen (exec (.v1Cmd 0x64) (withParser p5z)) =
      some ({ p5z with phase := .checksum, cmd := 0x0064, xorAcc := 0x64 }, [.feed .noFrame]) ∧
    seen (exec (.v1Cmd 0x02) (withParser p5)) =
      some ({ p5 with phase := .payload, cmd := 0x0002, xorAcc := 0x00 }, [.feed .noFrame]) := by decide
theorem test_v1Pay_V19_V20 :
    seen (exec (.v1Pay 0xBE) (withParser { p6 with remaining := 2, payload := [], xorAcc := 0x00 })) =
      some (p6, [.feed .noFrame]) ∧
    seen (exec (.v1Pay 0xEF) (withParser p6)) = some (p7, [.feed .noFrame]) := by decide
theorem test_v1CkOk_E2 : seen (exec (.v1CkOk 0x51) (withParser p7)) = some (i0, [.feed (.frame frameE1)]) := by decide
theorem test_v1CkBad_E3 :
    seen (exec (.v1CkBad 0xAE) (withParser p7)) = some (i0, [.feed (.err (.checksumMismatch 0xAE 0x51))]) := by decide
theorem test_v2Flag_V25_V26 :
    seen (exec (.v2Flag 0x00) (withParser p8)) = some (p9, [.feed .noFrame]) ∧
    seen (exec (.v2Flag 0xA5) (withParser p8)) = some ({ p9 with crcAcc := 0x60 }, [.feed .noFrame]) := by decide
theorem test_v2CmdLo_V27 : seen (exec (.v2CmdLo 0x03) (withParser p9)) = some (p10, [.feed .noFrame]) := by decide
theorem test_v2CmdHi_V28 : seen (exec (.v2CmdHi 0x02) (withParser p10)) = some (p11, [.feed .noFrame]) := by decide
theorem test_v2LenLo_V29 : seen (exec (.v2LenLo 0x04) (withParser p11)) = some (p12, [.feed .noFrame]) := by decide
theorem test_v2LenHi_V30_V31 :
    seen (exec (.v2LenHi 0x00) (withParser p12)) =
      some ({ p13 with remaining := 4, payload := [], crcAcc := 0x30 }, [.feed .noFrame]) ∧
    seen (exec (.v2LenHi 0x00) (withParser { p12 with remaining := 0, crcAcc := 0x25 })) =
      some ({ p14 with payload := [], crcAcc := 0x8F }, [.feed .noFrame]) := by decide
theorem test_v2LenHi_V33 :
    (seen (exec (.v2LenHi 0xFF) (withParser { p12 with remaining := 0x00FF }))).map (fun r => r.1.remaining) = some 65535 := by
  decide
theorem test_v2Pay_V35 : seen (exec (.v2Pay 0x80) (withParser p13)) = some (p14, [.feed .noFrame]) := by decide
theorem test_v2CkOk_V36 : seen (exec (.v2CkOk 0xFC) (withParser p14)) = some (i0, [.feed (.frame frameE4)]) := by decide
theorem test_v2CkBad_V38 :
    seen (exec (.v2CkBad 0x24) (withParser p14)) = some (i0, [.feed (.err (.checksumMismatch 0x24 0xFC))]) := by decide
theorem test_pReset_V39 :
    seen (exec .pReset (withParser { p6 with remaining := 5, payload := [0x01, 0x02, 0x03] })) = some (i0, []) := by decide
theorem test_pFeed_V7_V37 :
    seen (exec (.pFeed 0x24) (withParser p1)) = some (i0, [.feed (.err .invalidHeader)]) ∧
    seen (exec (.pFeed 0xFD) (withParser p14)) = some (i0, [.feed (.err (.checksumMismatch 0xFD 0xFC))]) := by decide
theorem test_pFeed_in_an_unreachable_control_state_is_refused :
    why (exec (.pFeed 0x24) (withParser { i0 with idx := true })) = some .unreachableControl := by decide
theorem test_byte_row_in_another_control_state_is_refused :
    why (exec .vtV1 State.reset) = some .rowNotSelected ∧ why (exec .asSync (withParser p1)) = some .rowNotSelected := by decide

/-! ### Frames (vectors W) -/

theorem test_frameV1_W1 :
    seen (exec (.frameV1 0x3C 0x64 [] 0x64) State.reset) =
      some (i0, List.replicate 5 (.feed .noFrame) ++ [.feed (.frame ⟨100, .toController, []⟩)]) := by decide
theorem test_frameV1_W13 :
    seen (exec (.frameV1 0x3E 0x24 [0x24, 0x4D, 0x3C] 0x72) State.reset) =
      some (i0, List.replicate 8 (.feed .noFrame) ++ [.feed (.frame ⟨36, .fromController, [0x24, 0x4D, 0x3C]⟩)]) := by decide
theorem test_frameV2_W5 :
    seen (exec (.frameV2 0x3C 0xA5 515 [] 0x52) State.reset) =
      some (i0, List.replicate 8 (.feed .noFrame) ++ [.feed (.frame ⟨515, .toController, []⟩)]) := by decide +kernel
theorem test_frameV2_W6 :
    seen (exec (.frameV2 0x3C 0xA5 515 [] 0x1C) State.reset) =
      some (i0, List.replicate 8 (.feed .noFrame) ++ [.feed (.err (.checksumMismatch 0x1C 0x52))]) := by decide +kernel

/-! ### Witnesses: states and operands that meet the hypotheses of the obligations, all of a statement's together -/

theorem inv_p4 : ParserInv p4 := rfl
theorem inv_p5z : ParserInv p5z := show ∃ L : Byte, _ from ⟨0, by decide⟩
theorem inv_p6 : ParserInv p6 := show ∃ L C : Byte, _ from ⟨2, 2, by decide⟩
theorem inv_p13 : ParserInv p13 := show ∃ (F : Byte) (L : Half), _ from ⟨0, 4, by decide +kernel⟩

/-- A V1 payload byte with the most that can remain, and the V2 payload state in which one byte of the longest payload remains. -/
def p6max : ParserState := { p6 with remaining := 255, payload := [], xorAcc := 0xFD }
def p13last : ParserState := { p13 with payload := List.replicate 65534 0 }

theorem inv_p6max : ParserInv p6max := show ∃ L C : Byte, _ from ⟨255, 2, by decide⟩

/-- The invariant of the whole machine, for a machine with one parser under way. -/
theorem inv_withParser {p : ParserState} (h : ParserInv p) (h' : p ≠ ParserState.init) (ls : List Line) :
    Inv { withParser p with pending := ls } := by
  refine ⟨fun k => ?_, ?_, rfl, rfl, rfl, fun d hd => nomatch hd⟩
  · by_cases hk : 0 = k
    · subst hk; exact h
    · have : ({ withParser p with pending := ls } : State).parser k = ParserState.init := by
        simp [State.parser, withParser, State.reset, bankGet, bankFind, hk]
      rw [this]; rfl
  · simp [withParser, State.reset, bankWf, bankSorted, h']

theorem witness_XorUpdateFoldsOneByte :
    ((0x00 : Byte) = 0x00) ∧ State.reset.xorReg State.reset.cur = 0x00 ∧ ((0xFF : Byte) = 0xFF) := by decide
theorem witness_XorUpdateBulkIsTheFold :
    ([2, 1] : List Byte).Perm [1, 2] ∧ ([1, 2] : List Byte) = [1] ++ 2 :: [] := ⟨List.Perm.swap _ _ _, rfl⟩
theorem witness_Crc8UpdateShiftsEightTimes : (0x00 : Byte) = State.reset.crcReg State.reset.cur := by decide
theorem witness_Crc8UpdateBulkIsTheFold : ([1, 2] : List Byte) = [1] ++ 2 :: [] := rfl
theorem witness_XorSumLaws : ([2, 1] : List Byte).Perm [1, 2] ∧ (0x01 : Byte) ≠ 0x00 := ⟨List.Perm.swap _ _ _, by decide⟩
theorem witness_CrcSumLaws : ([1] : List Byte).length = ([2] : List Byte).length ∧ (0x01 : Byte) ≠ 0x03 := by decide
theorem witness_SerializeV1WritesTheFrame :
    frameE1.payload.length ≤ 255 ∧ (⟨2, .unsupported, List.replicate 255 0⟩ : Frame).payload.length ≤ 255 := by
  simp only [List.length_replicate]; decide
theorem witness_SerializeV2WritesTheFrame :
    frameE4.payload.length ≤ 65535 ∧ (⟨2, .unsupported, List.replicate 65535 0⟩ : Frame).payload.length ≤ 65535 := by
  simp only [List.length_replicate]; decide
theorem witness_SerializeWrongLengthWritesNothing :
    (frameE1.payload.length ≤ 255 ∧ 7 ≠ 6 + frameE1.payload.length) ∧
    (frameE1.payload.length ≤ 65535 ∧ 8 ≠ 9 + frameE1.payload.length) := by decide
theorem witness_SerializeOverLimitIsRefused :
    255 < (⟨2, .unsupported, List.replicate 256 0⟩ : Frame).payload.length ∧
    65535 < (⟨2, .unsupported, List.replicate 65536 0⟩ : Frame).payload.length := by
  simp only [List.length_replicate]; decide
theorem witness_SerializedBytesDenoteTheirFrame :
    (∃ t, exec (.serV1 frameE1 8) State.reset = .next t ∧ t.delivered = State.reset.delivered ++ [⟨0, .ser (.ok bytesE1)⟩]) ∧
    (∃ t, exec (.serV2 frameE4 13) State.reset = .next t ∧
      t.delivered = State.reset.delivered ++ [⟨0, .ser (.ok bytesE4)⟩]) := by
  refine ⟨⟨_, execSerV1_eq (by decide) 8 _, ?_⟩, ⟨_, execSerV2_eq (by decide) 13 _, ?_⟩⟩ <;> decide +kernel
theorem witness_AwaitSyncSkipsNoiseAndTakesSync : State.reset.curParser.stateId = some .s0 ∧ (0x4D : Byte) ≠ 0x24 := by decide
theorem witness_VersionTagSelectsTheRevision : (withParser p1).curParser.stateId = some .s1 := by decide
theorem witness_UnknownVersionTagIsInvalidHeader :
    (withParser p1).curParser.stateId = some .s1 ∧ (0x24 : Byte) ≠ 0x4D ∧ (0x24 : Byte) ≠ 0x58 := by decide
theorem witness_DirectionByteSetsTheDirection :
    ((withParser p2).curParser.stateId = some .s2 ∧ Phase.length = .length) ∧
    ((withParser p3).curParser.stateId = some .s3 ∧ Phase.flag = .flag) := by decide
theorem witness_UnknownDirectionByteIsInvalidDirection :
    (withParser p2).curParser.stateId = some .s2 ∧ (withParser p3).curParser.stateId = some .s3 ∧
    (0x3D : Byte) ≠ 0x3C ∧ (0x3D : Byte) ≠ 0x3E ∧ (0x3D : Byte) ≠ 0x21 := by decide
theorem witness_V1LengthByteLoadsTheCounter :
    (withParser p4).curParser.stateId = some .s4 ∧ ParserInv (withParser p4).curParser := ⟨by decide, inv_p4⟩
theorem witness_V1CommandByteIsTheCommand :
    (withParser p5z).curParser.stateId = some .s5 ∧ ParserInv (withParser p5z).curParser ∧
    (withParser p5z).curParser.remaining = 0 := ⟨by decide, inv_p5z, rfl⟩
theorem witness_V1PayloadByteIsAppended :
    ((withParser p6).curParser.stateId = some .s6 ∧ 1 ≤ (withParser p6).curParser.remaining.toNat ∧
      (withParser p6).curParser.payload.length < 65535 ∧ ParserInv (withParser p6).curParser) ∧
    ((withParser p6max).curParser.stateId = some .s6 ∧ 1 ≤ (withParser p6max).curParser.remaining.toNat ∧
      (withParser p6max).curParser.payload.length < 65535 ∧ ParserInv (withParser p6max).curParser) :=
  ⟨⟨by decide, by decide, by decide, inv_p6⟩, ⟨by decide, by decide, by decide, inv_p6max⟩⟩
theorem witness_V1MatchingChecksumDeliversTheFrame : (withParser p7).curParser.stateId = some .s7 := by decide
theorem witness_V1WrongChecksumIsMismatch :
    (withParser p7).curParser.stateId = some .s7 ∧ (0xAE : Byte) ≠ (withParser p7).curParser.xorAcc := by decide
theorem witness_V2FlagIsAcceptedAndFolded :
    (withParser p8).curParser.stateId = some .s8 ∧ (withParser p8).curParser.crcAcc = 0x00 := by decide
theorem witness_V2CommandBytesAssembleLittleEndian :
    (withParser p9).curParser.stateId = some .s9 ∧ (withParser p10).curParser.stateId = some .s10 := by decide
theorem witness_V2LengthLowByteLoadsTheCounter : (withParser p11).curParser.stateId = some .s11 := by decide
theorem witness_V2LengthHighByteTestsForZero : (withParser p12).curParser.stateId = some .s12 := by decide
theorem witness_V2PayloadByteIsAppended :
    ((withParser p13).curParser.stateId = some .s13 ∧ 1 ≤ (withParser p13).curParser.remaining.toNat ∧
      (withParser p13).curParser.payload.length < 65535 ∧ ParserInv (withParser p13).curParser) ∧
    ((withParser p13last).curParser.stateId = some .s13 ∧ 1 ≤ (withParser p13last).curParser.remaining.toNat ∧
      (withParser p13last).curParser.payload.length < 65535) := by
  refine ⟨⟨by decide, by decide, by decide, inv_p13⟩, by rfl, by decide, ?_⟩
  show (List.replicate 65534 (0 : Byte)).length < 65535
  simp only [List.length_replicate]; decide
theorem witness_V2MatchingChecksumDeliversTheFrame : (withParser p14).curParser.stateId = some .s14 := by decide
theorem witness_V2WrongChecksumIsMismatch :
    (withParser p14).curParser.stateId = some .s14 ∧ (0xFD : Byte) ≠ crcFinal (withParser p14).curParser.crcAcc := by decide
theorem witness_FeedRunsTheRowTheMapSelects :
    (withParser p7).curParser.context = some ⟨.s7, 0x51, 0x00⟩ ∧
    decodeByte ⟨.s7, 0x51, 0x00⟩ 0x51 = some (.v1CkOk 0x51) ∧
    encode (.v1CkBad 0x51) = .byte 0x51 ∧ Instr.v1CkBad 0x51 ≠ .v1CkOk 0x51 := by decide
theorem witness_UnreachableParserStatesAreRefused :
    (withParser { i0 with idx := true }).curParser.stateId = none ∧
    ((withParser { p6 with remaining := 0 }).curParser.stateId = some .s6 ∧
      (withParser { p6 with remaining := 0 }).curParser.remaining = 0) ∧
    ((withParser { p6 with payload := List.replicate 65535 0 }).curParser.stateId = some .s6 ∧
      (withParser { p6 with payload := List.replicate 65535 0 }).curParser.remaining ≠ 0 ∧
      65535 ≤ (List.replicate 65535 (0 : Byte)).length) ∧
    ((withParser { p13 with remaining := 0 }).curParser.stateId = some .s13 ∧
      (withParser { p13 with remaining := 0 }).curParser.remaining = 0) ∧
    ((withParser { p13 with payload := List.replicate 65535 0 }).curParser.stateId = some .s13 ∧
      (withParser { p13 with payload := List.replicate 65535 0 }).curParser.remaining ≠ 0) := by
  refine ⟨by decide, by decide, ⟨by rfl, by decide, ?_⟩, by decide, by rfl, by decide⟩
  simp only [List.length_replicate]; decide
theorem witness_FrameRowsRunFromEveryReachableParser :
    ParserInv (withParser p6).curParser ∧ (List.replicate 255 (0 : Byte)).length ≤ 255 ∧
    (List.replicate 65535 (0 : Byte)).length ≤ 65535 := by
  refine ⟨inv_p6, ?_, ?_⟩ <;> simp only [List.length_replicate] <;> decide
theorem witness_WellFormedV1FrameIsDelivered :
    State.reset.curParser = ParserState.init ∧ (Instr.frameV1 0x3C 0x02 [0xBE, 0xEF] 0x51).wf = true ∧
    dirOf 0x3C = some .toController := by decide
theorem witness_WellFormedV2FrameIsDelivered :
    State.reset.curParser = ParserState.init ∧ (Instr.frameV2 0x3C 0xA5 515 [] 0x52).wf = true ∧
    dirOf 0x3C = some .toController := by decide +kernel
theorem witness_SerializeThenParseRoundTrips :
    State.reset.curParser = ParserState.init ∧ frameE1.payload.length ≤ 255 ∧ frameE4.payload.length ≤ 65535 := by decide
theorem witness_NoiseLeavesTheParserInInit : State.reset.curParser = ParserState.init ∧ 0x24 ∉ ([0x4D, 0x00] : List Byte) := by
  decide
theorem witness_ProperPrefixOfAFrameGivesOnlyNone :
    State.reset.curParser = ParserState.init ∧ isV1Frame bytesE1 = true ∧ bytesE1 = bytesE1.take 7 ++ [0x51] ∧
    isV2Frame bytesE4 = true ∧ bytesE4 = bytesE4.take 12 ++ [0xFC] := by decide +kernel
theorem witness_WrongLastByteIsChecksumMismatch :
    State.reset.curParser = ParserState.init ∧ isV1Frame ([0x24, 0x4D, 0x3C, 0x02, 0x02, 0xBE, 0xEF] ++ [0x51]) = true ∧
    (0xAE : Byte) ≠ 0x51 ∧ isV2Frame (bytesE4.take 12 ++ [0xFC]) = true ∧ (0xFD : Byte) ≠ 0xFC := by decide +kernel
theorem witness_StreamOfFramesIsDeliveredInOrder :
    State.reset.curParser = ParserState.init ∧ 0x24 ∉ ([0x0A] : List Byte) ∧
    isV1Frame bytesE1 = true ∧ denoteV1 bytesE1 = some frameE1 ∧ isV2Frame bytesE4 = true ∧ denoteV2 bytesE4 = some frameE4 := by
  decide +kernel
theorem witness_ParserReturnsToInitWithinTheBound :
    (withParser p1).curParser = { ParserState.init with phase := .versionTag } ∧
    260 ≤ ((0x4D : Byte) :: List.replicate 259 0).length ∧ 65543 ≤ ((0x58 : Byte) :: List.replicate 65542 0).length ∧
    1 ≤ ([0x24] : List Byte).length := by
  simp only [List.length_cons, List.length_replicate, List.length_nil]; decide
theorem witness_EveryFeedHasOneResultAndResultsEndInInit : ParserInv (withParser p13).curParser := inv_p13
theorem witness_ResultsNeedTheirBytes :
    State.reset.curParser = ParserState.init ∧ FeedResult.err .invalidHeader ≠ .noFrame ∧
    BytesTo [0x24, 0x41] State.reset ParserState.init (List.replicate 1 .noFrame ++ [.err .invalidHeader]) ∧
    BytesTo [0x24, 0x4D, 0x3C, 0x00, 0x64, 0x64] State.reset ParserState.init
      (List.replicate 5 .noFrame ++ [.frame ⟨100, .toController, []⟩]) :=
  ⟨rfl, by decide, bytesTo_of_feedsPure (by decide), bytesTo_of_feedsPure (by decide)⟩
theorem witness_InstructionsTouchOnlyTheirInstance :
    exec .xorReset State.reset = .next (State.reset.setXorReg 0 xorInit) := rfl
theorem witness_OperationsOnDifferentInstancesCommute :
    (0 : Nat) ≠ 1 ∧ exec .xorValue { State.reset with cur := 0 } =
      .next (({ State.reset with cur := 0 } : State).deliver (.xorValue 0x00)) ∧
    exec .asSync { ({ State.reset with cur := 0 } : State).deliver (.xorValue 0x00) with cur := 1 } =
      .next ({ ({ State.reset with cur := 0 } : State).deliver (.xorValue 0x00) with cur := 1 }.advance p1) :=
  ⟨by decide, rfl, rfl⟩
theorem witness_StepRunsTheDecodedInstruction :
    decode (State.reset.parser 3).context (.byte 0x24) = .ok (.asSync, []) ∧
    decode (State.reset.parser 3).context (.burst (bytesE1 ++ [0x24])) =
      .ok (.frameV1 0x3C 0x02 [0xBE, 0xEF] 0x51, [0x24]) ∧
    decode (State.reset.parser 3).context (.burst [0x00, 0x24]) = .error .noFrameRow ∧ State.reset.pending = [] :=
  ⟨rfl, rfl, rfl, rfl⟩
theorem witness_DecodeOfEncodeIsTheInstruction :
    (Instr.v1CkOk 0x51).fits = true ∧ (Instr.v1CkOk 0x51).encodable ⟨.s7, 0x51, 0x00⟩ = true ∧
    (Instr.frameV1 0x3C 0x02 [0xBE, 0xEF] 0x51).fits = true ∧ (Instr.serV1 frameE1 8).fits = true := by decide
theorem witness_DecodedFramesAreTheirOwnEncoding :
    decodeFrame (bytesE1 ++ [0x24]) = some (.frameV1 0x3C 0x02 [0xBE, 0xEF] 0x51, [0x24]) ∧
    decodeFrame bytesE4 = some (.frameV2 0x3C 0x00 515 [0x44, 0x20, 0x00, 0x80] 0xFC, []) := by decide
theorem witness_EveryStepKeepsTheInvariant :
    ∃ t, Inv { withParser p6 with pending := [⟨0, .byte 0xEF⟩] } ∧
      step { withParser p6 with pending := [⟨0, .byte 0xEF⟩] } = .next t :=
  ⟨_, inv_withParser inv_p6 (by decide) _, rfl⟩
theorem witness_DutifulHostIsNeverStopped :
    Inv { withParser p13 with pending := [⟨0, .burst bytesE4⟩, ⟨1, .op (.serV1 frameE1 0)⟩] } ∧
    HostKeepsDuties { withParser p13 with pending := [⟨0, .burst bytesE4⟩, ⟨1, .op (.serV1 frameE1 0)⟩] } :=
  ⟨inv_withParser inv_p13 (by decide) _, by simp only [HostKeepsDuties]; decide⟩

end Sys2Proof.Tests
end

/-! PROOFS. The XOR accumulator (40_checksum_xor.md): `XOR.UPDATE` (R102) and `XOR.VALUE` (R104). -/

namespace Sys2Proof.Machine

/-! ### Frames of the two ways an `XOR.*` operation changes the state (R46) -/

theorem setXorReg_onlyXorReg (s : State) (v : Byte) : OnlyXorReg s (s.setXorReg s.cur v) :=
  ⟨fun k => setXorReg_parser s s.cur k v, fun _ hk => setXorReg_xorReg_other s hk v,
    fun k => setXorReg_crcReg s s.cur k v, fun _ => rfl, rfl, rfl⟩

theorem deliver_onlyXorReg (s : State) (r : Result) : OnlyXorReg s (s.deliver r) :=
  ⟨deliver_parser s r, fun k _ => deliver_xorReg s r k, deliver_crcReg s r, fun _ => rfl, rfl, rfl⟩

/-! ### The corner cases of one fold (R102) -/

@[simp] theorem xorFold_zero (acc : Byte) : xorFold acc 0x00 = acc := BitVec.xor_zero

@[simp] theorem xorFold_self (acc : Byte) : xorFold acc acc = 0x00 := BitVec.xor_self

@[simp] theorem xorFold_allOnes (acc : Byte) : xorFold acc 0xFF = ~~~acc := BitVec.xor_allOnes

@[simp] theorem xorFold_xorFold (acc b : Byte) : xorFold (xorFold acc b) b = acc := by
  simp [xorFold]

/-! ### What the two instructions do -/

theorem exec_xorUpdate (b : Byte) (s : State) :
    exec (.xorUpdate b) s = .next (s.setXorReg s.cur (xorFold (s.xorReg s.cur) b)) := rfl

theorem exec_xorValue (s : State) : exec .xorValue s = .next (s.deliver (.xorValue (s.xorReg s.cur))) := rfl

/-- Settles O4: the written register is one fold of `b`, and each corner case is a law of that fold. -/
theorem xorUpdateFoldsOneByte : Obligations.XorUpdateFoldsOneByte := by
  intro b s
  have hreg : (s.setXorReg s.cur (xorFold (s.xorReg s.cur) b)).xorReg s.cur = xorFold (s.xorReg s.cur) b :=
    setXorReg_xorReg_same ..
  refine ⟨_, exec_xorUpdate b s, hreg, setXorReg_delivered .., setXorReg_onlyXorReg .., ?zero, ?self, ?ones,
    _, exec_xorUpdate b _, ?twice⟩
  case zero => rintro rfl; rw [hreg, xorFold_zero]
  case self => rintro rfl; rw [hreg, xorFold_self]
  case ones => rintro rfl; rw [hreg, xorFold_allOnes]
  case twice => simp

/-- Settles O6: `XOR.VALUE` only delivers, so the register it reads the second time is the one it read the first time. -/
theorem xorValueReturnsTheRegister : Obligations.XorValueReturnsTheRegister := by
  intro s
  refine ⟨_, exec_xorValue s, deliver_xorReg .., deliver_delivered .., deliver_onlyXorReg .., _, exec_xorValue _, ?again⟩
  case again => rw [deliver_delivered, deliver_xorReg, deliver_cur]

end Sys2Proof.Machine

/-! PROOFS. The streaming parser, rule by rule (43_parser.md): each `parser-byte` row together with the `P.FEED` that selects it. -/

namespace Sys2Proof.Machine

/-! ### `P.FEED` is the row R81's map selects -/

theorem context_of_stateId {p : ParserState} {i : StateId} (h : p.stateId = some i) :
    p.context = some ⟨i, p.xorAcc, crcFinal p.crcAcc⟩ := by
  simp [ParserState.context, h]

/-- R81, for S2 and S3: the direction rows. -/
theorem exec_feedDirection (b : Byte) (s : State) :
    feedDirection b s =
      exec (if b = dirToByte then .dirTo else if b = dirFromByte then .dirFrom else if b = dirUnsByte then .dirUns
        else .dirBad b) s := by
  unfold feedDirection dirOf
  split_ifs <;> rfl

/-- R150, R81: feeding a byte runs the row the byte is decoded as. -/
theorem exec_pFeed_of_decodeByte {s : State} {c : Context} {b : Byte} {i : Instr} (hc : s.curParser.context = some c)
    (hi : decodeByte c b = some i) : exec (.pFeed b) s = exec i s := by
  show execPFeed b s = exec i s
  cases hs : s.curParser.stateId with
  | none => simp [ParserState.context, hs] at hc
  | some st =>
    rw [context_of_stateId hs] at hc
    cases hc
    rw [decodeByte_eq, Option.some.injEq] at hi
    subst hi
    cases st <;> simp only [execPFeed, hs]
    case s0 | s1 | s7 | s14 => split_ifs <;> rfl
    case s2 | s3 => exact exec_feedDirection b s
    all_goals rfl

/-- R81, R150: what `feedPure` says of a byte, both the row of that byte and `P.FEED` do. -/
theorem row_and_pFeed {s : State} {st : StateId} {b : Byte} {i : Instr} {p : ParserState} {r : FeedResult}
    (hs : s.curParser.stateId = some st)
    (hi : decodeByte ⟨st, s.curParser.xorAcc, crcFinal s.curParser.crcAcc⟩ b = some i)
    (hf : feedPure s.curParser b = .ok (p, r)) : FeedsTo i s p r ∧ FeedsTo (.pFeed b) s p r := by
  have hrow : exec (.pFeed b) s = exec i s := exec_pFeed_of_decodeByte (context_of_stateId hs) hi
  obtain ⟨t, ht, hrest⟩ := feedsTo_of_feedPure hf
  exact ⟨⟨t, hrow ▸ ht, hrest⟩, ⟨t, ht, hrest⟩⟩

/-! ### The header (R152 to R159) -/

/-- Settles O18: S0 has two rows, told apart by the sync byte. -/
theorem awaitSyncSkipsNoiseAndTakesSync : Obligations.AwaitSyncSkipsNoiseAndTakesSync := by
  intro s hs
  refine ⟨fun b hb => ?noise, ?sync⟩
  case noise =>
    have hb : b ≠ syncByte := hb
    exact row_and_pFeed hs (by simp [decodeByte_eq, hb]) (by simp [feedPure, hs, hb])
  case sync => exact row_and_pFeed (b := syncByte) hs (by simp [decodeByte_eq]) (by simp [feedPure, hs])

theorem tagV2_ne_tagV1 : tagV2 ≠ tagV1 := by decide

/-- Settles O19: S1 has one row for each version tag. -/
theorem versionTagSelectsTheRevision : Obligations.VersionTagSelectsTheRevision := by
  intro s hs
  refine and_assoc.1 ⟨?v1, ?v2⟩
  case v1 => exact row_and_pFeed (b := tagV1) hs (by simp [decodeByte_eq]) (by simp [feedPure, hs])
  case v2 =>
    exact row_and_pFeed (b := tagV2) hs (by simp [decodeByte_eq, tagV2_ne_tagV1]) (by simp [feedPure, hs, tagV2_ne_tagV1])

/-- Settles O20: a byte that is no version tag is left to the default row of S1. -/
theorem unknownVersionTagIsInvalidHeader : Obligations.UnknownVersionTagIsInvalidHeader := by
  intro b s hs hb1 hb2
  have hb1 : b ≠ tagV1 := hb1
  have hb2 : b ≠ tagV2 := hb2
  exact row_and_pFeed hs (by simp [decodeByte_eq, hb1, hb2]) (by simp [feedPure, hs, hb1, hb2])

/-- The row of each direction byte (R157 to R159). -/
def directionRow : Direction → Instr
  | .toController => .dirTo
  | .fromController => .dirFrom
  | .unsupported => .dirUns

theorem decodeByte_dirByte {c : Context} (hc : c.state = .s2 ∨ c.state = .s3) (d : Direction) :
    decodeByte c (dirByte d) = some (directionRow d) := by
  rw [decodeByte_eq]
  rcases hc with hc | hc <;> rw [hc] <;> cases d <;> rfl

/-- R157 to R159 at once: the three rules differ in the direction alone. -/
theorem directionRow_and_pFeed {s : State} {next : Phase}
    (h : s.curParser.stateId = some .s2 ∧ next = .length ∨ s.curParser.stateId = some .s3 ∧ next = .flag)
    (d : Direction) :
    FeedsTo (directionRow d) s { s.curParser with dir := d, phase := next } .noFrame ∧
    FeedsTo (.pFeed (dirByte d)) s { s.curParser with dir := d, phase := next } .noFrame := by
  obtain ⟨hs, rfl⟩ | ⟨hs, rfl⟩ := h
  · exact row_and_pFeed hs (decodeByte_dirByte (.inl rfl) d) (by simp [feedPure, hs, dirOf_dirByte])
  · exact row_and_pFeed hs (decodeByte_dirByte (.inr rfl) d) (by simp [feedPure, hs, dirOf_dirByte])

/-- Settles O21: the rule of the three directions, once for each. -/
theorem directionByteSetsTheDirection : Obligations.DirectionByteSetsTheDirection := by
  intro s next h
  obtain ⟨rowTo, feedTo⟩ := directionRow_and_pFeed h .toController
  obtain ⟨rowFrom, feedFrom⟩ := directionRow_and_pFeed h .fromController
  obtain ⟨rowUns, feedUns⟩ := directionRow_and_pFeed h .unsupported
  exact ⟨rowTo, feedTo, rowFrom, feedFrom, rowUns, feedUns⟩

/-! ### What R32's invariant says of the V1 body -/

theorem ParserInv.xorAcc_of_s4 {p : ParserState} (hi : ParserInv p) (hs : p.stateId = some .s4) : p.xorAcc = 0x00 := by
  simp only [ParserInv, hs] at hi
  rw [hi]; rfl

/-- After the length byte the accumulator is that byte, which is also what remains. -/
theorem ParserInv.xorAcc_of_s5 {p : ParserState} (hi : ParserInv p) (hs : p.stateId = some .s5) :
    p.xorAcc = lowByte p.remaining := by
  simp only [ParserInv, hs] at hi
  obtain ⟨L, hp⟩ := hi
  rw [hp, lowByte_zext16]
  simp [xorSum, xorFold, xorInit]

theorem ParserInv.payload_of_s6 {p : ParserState} (hi : ParserInv p) (hs : p.stateId = some .s6) :
    p.payload.length + p.remaining.toNat ≤ 255 := by
  simp only [ParserInv, hs] at hi
  obtain ⟨L, C, -, hlen, -⟩ := hi
  have := L.isLt
  omega

/-! ### The V1 body (R161, R162, R168, R170, R171) -/

/-- Settles O23: the one row of S4; under the invariant the accumulator it folds into is 0. -/
theorem v1LengthByteLoadsTheCounter : Obligations.V1LengthByteLoadsTheCounter := by
  intro n s hs p
  refine and_assoc.1 ⟨?run, fun hinv => ?acc⟩
  case run => exact row_and_pFeed hs (by simp [decodeByte_eq]) (by simp only [feedPure, hs]; rfl)
  case acc =>
    show s.curParser.xorAcc ^^^ n = n
    simp [hinv.xorAcc_of_s4 hs]

/-- Settles O24: the one row of S5; with nothing remaining the length byte was 0, and so was the accumulator. -/
theorem v1CommandByteIsTheCommand : Obligations.V1CommandByteIsTheCommand := by
  intro c s hs p
  refine and_assoc.1 ⟨?run, ?range, fun hinv hr => ?acc⟩
  case run => exact row_and_pFeed hs (by simp [decodeByte_eq]) (by simp only [feedPure, hs]; rfl)
  case range =>
    have hcmd : p.cmd.toNat = c.toNat := zext16_toNat c
    have := c.isLt
    omega
  case acc =>
    have hacc : s.curParser.xorAcc = 0x00 := by rw [hinv.xorAcc_of_s5 hs, hr]; rfl
    show s.curParser.xorAcc ^^^ c = c
    simp [hacc]

/-- Settles O25: the payload rule on a ParserState, and the invariant's bound on what is held and what remains. -/
theorem v1PayloadByteIsAppended : Obligations.V1PayloadByteIsAppended := by
  intro d s hs hr hfree p
  refine and_assoc.1 ⟨?run, fun hinv => ?held⟩
  case run => exact row_and_pFeed hs (by simp [decodeByte_eq]) (feedPure_payloadV1 hs hr hfree d)
  case held =>
    have hbound := hinv.payload_of_s6 hs
    show (s.curParser.payload ++ [d]).length ≤ 255
    simp only [List.length_append, List.length_singleton]
    omega

/-- Settles O26: of the two rows of S7, the one for the accumulator's value. -/
theorem v1MatchingChecksumDeliversTheFrame : Obligations.V1MatchingChecksumDeliversTheFrame := by
  intro s hs
  exact row_and_pFeed hs (by simp [decodeByte_eq]) (by simp [feedPure, hs, ParserState.assembled])

/-- Settles O27: of the two rows of S7, the default one. -/
theorem v1WrongChecksumIsMismatch : Obligations.V1WrongChecksumIsMismatch := by
  intro k s hs hk
  exact row_and_pFeed hs (by simp [decodeByte_eq, hk]) (by simp [feedPure, hs, hk])

/-! ### The V2 body (R163 to R167, R172, R173) -/

/-- Settles O28: the one row of S8; an update of 0 with 0 is 0. -/
theorem v2FlagIsAcceptedAndFolded : Obligations.V2FlagIsAcceptedAndFolded := by
  intro f s hs p
  refine and_assoc.1 ⟨?run, fun hacc hf => ?acc⟩
  case run => exact row_and_pFeed hs (by simp [decodeByte_eq]) (by simp only [feedPure, hs]; rfl)
  case acc =>
    show crcFold s.curParser.crcAcc f = 0x00
    rw [hacc, hf, crcFold_self]

/-- The number a high byte makes with the low byte already received (R165, R167). -/
theorem joinBytes_lowByte_toNat (hi : Byte) (h : Half) :
    (joinBytes hi (lowByte h)).toNat = hi.toNat * 256 + h.toNat % 256 := by
  rw [joinBytes_toNat, lowByte_toNat]

/-- Settles O29: the one row of S9 and the one row of S10, which joins its byte to the low byte. -/
theorem v2CommandBytesAssembleLittleEndian : Obligations.V2CommandBytesAssembleLittleEndian := by
  intro c s
  refine ⟨fun hs => ?low, fun hs => ⟨joinBytes c (lowByte s.curParser.cmd), joinBytes_lowByte_toNat .., ?high⟩⟩
  case low => exact row_and_pFeed hs (by simp [decodeByte_eq]) (by simp only [feedPure, hs]; rfl)
  case high => exact row_and_pFeed hs (by simp [decodeByte_eq]) (by simp only [feedPure, hs])

/-- Settles O30: the one row of S11, which writes no phase. -/
theorem v2LengthLowByteLoadsTheCounter : Obligations.V2LengthLowByteLoadsTheCounter := by
  intro n s hs p
  exact row_and_pFeed hs (by simp [decodeByte_eq]) (by simp only [feedPure, hs]; rfl)

theorem payloadOrChecksum_eq_toNat (r : Half) :
    payloadOrChecksum r = if r.toNat = 0 then .checksum else .payload := by
  simp [payloadOrChecksum, ← BitVec.toNat_inj]

/-- Settles O31: the one row of S12; the length is the announced one, and its zero test is one on its number. -/
theorem v2LengthHighByteTestsForZero : Obligations.V2LengthHighByteTestsForZero := by
  intro n s hs
  refine ⟨s.curParser.announced n, joinBytes_lowByte_toNat .., ?_⟩
  exact row_and_pFeed hs (by simp [decodeByte_eq]) (by simp only [feedPure, hs, payloadOrChecksum_eq_toNat])

/-- Settles O33: of the two rows of S14, the one for the finalized accumulator. -/
theorem v2MatchingChecksumDeliversTheFrame : Obligations.V2MatchingChecksumDeliversTheFrame := by
  intro s hs
  exact row_and_pFeed hs (by simp [decodeByte_eq]) (by simp [feedPure, hs, ParserState.assembled])

/-- Settles O34: of the two rows of S14, the default one. -/
theorem v2WrongChecksumIsMismatch : Obligations.V2WrongChecksumIsMismatch := by
  intro k s hs hk
  exact row_and_pFeed hs (by simp [decodeByte_eq, hk]) (by simp [feedPure, hs, hk])

end Sys2Proof.Machine

/-! PROOFS. Runs of bytes on one ParserState: how a run comes apart, and that the machine's runs are those of `feedsPure`. -/

namespace Sys2Proof.Machine

theorem feedsPure_cons_eq_ok {p q : ParserState} {b : Byte} {bs : List Byte} {rs : List FeedResult} :
    feedsPure p (b :: bs) = .ok (q, rs) ↔
      ∃ p' r rs', feedPure p b = .ok (p', r) ∧ feedsPure p' bs = .ok (q, rs') ∧ rs = r :: rs' := by
  constructor
  · intro h
    simp only [feedsPure] at h
    split at h
    case h_1 => cases h
    case h_2 p' r hb =>
      split at h
      case h_1 => cases h
      case h_2 q' rs' hbs =>
        cases h
        exact ⟨p', r, rs', hb, hbs, rfl⟩
  · rintro ⟨p', r, rs', hb, hbs, rfl⟩
    exact feedsPure_cons hb hbs

theorem feedsPure_append_eq_ok {p q : ParserState} {u v : List Byte} {rs : List FeedResult} :
    feedsPure p (u ++ v) = .ok (q, rs) ↔
      ∃ p' rs₁ rs₂, feedsPure p u = .ok (p', rs₁) ∧ feedsPure p' v = .ok (q, rs₂) ∧ rs = rs₁ ++ rs₂ := by
  constructor
  · intro h
    induction u generalizing p rs with
    | nil => exact ⟨p, [], rs, rfl, h, rfl⟩
    | cons b u ih =>
      obtain ⟨p₁, r, rs', hb, hu, rfl⟩ := feedsPure_cons_eq_ok.1 h
      obtain ⟨p', rs₁, rs₂, hu₁, hv, rfl⟩ := ih hu
      exact ⟨p', r :: rs₁, rs₂, feedsPure_cons hb hu₁, hv, rfl⟩
  · rintro ⟨p', rs₁, rs₂, hu, hv, rfl⟩
    exact feedsPure_append hu hv

@[simp] theorem feedsPure_singleton_eq_ok {p q : ParserState} {b : Byte} {rs : List FeedResult} :
    feedsPure p [b] = .ok (q, rs) ↔ ∃ r, feedPure p b = .ok (q, r) ∧ rs = [r] := by
  rw [feedsPure_cons_eq_ok]
  constructor
  · rintro ⟨p', r, rs', hb, hnil, rfl⟩
    cases hnil
    exact ⟨r, hb, rfl⟩
  · rintro ⟨r, hb, rfl⟩
    exact ⟨q, r, [], hb, rfl, rfl⟩

/-- R150: one result for each byte. -/
theorem length_of_feedsPure {p q : ParserState} {w : List Byte} {rs : List FeedResult}
    (h : feedsPure p w = .ok (q, rs)) : rs.length = w.length := by
  induction w generalizing p rs with
  | nil => cases h; rfl
  | cons b w ih =>
    obtain ⟨p', r, rs', -, hw, rfl⟩ := feedsPure_cons_eq_ok.1 h
    simp [ih hw]

theorem feedsPure_noFrame_left {p q : ParserState} {u v : List Byte} {n : Nat}
    (h : feedsPure p (u ++ v) = .ok (q, List.replicate n .noFrame)) :
    ∃ p', feedsPure p u = .ok (p', List.replicate u.length .noFrame) := by
  obtain ⟨p', rs₁, rs₂, hu, -, hrs⟩ := feedsPure_append_eq_ok.1 h
  obtain ⟨-, h₁, -⟩ := List.append_eq_replicate_iff.1 hrs.symm
  exact ⟨p', by rw [hu, ← length_of_feedsPure hu, ← h₁]⟩

theorem feedDeliveries_injective (k : Nat) : Function.Injective (feedDeliveries k) :=
  List.map_injective_iff.2 fun _ _ h => by simpa using h

/-- The machine's runs of bytes are exactly those of the addressed ParserState. -/
theorem bytesTo_iff {w : List Byte} {s : State} {p : ParserState} {rs : List FeedResult} :
    BytesTo w s p rs ↔ feedsPure s.curParser w = .ok (p, rs) := by
  refine ⟨fun h => ?_, bytesTo_of_feedsPure⟩
  obtain ⟨t, ht, hp, hd, -⟩ := h
  cases hw : feedsPure s.curParser w with
  | error e => rw [feedAll_of_feedsPure_error hw] at ht; cases ht
  | ok x =>
    obtain ⟨q, qs⟩ := x
    obtain ⟨t', ht', hq, hd', -⟩ := bytesTo_of_feedsPure hw
    obtain rfl : t = t' := by rw [ht] at ht'; cases ht'; rfl
    rw [hd, List.append_cancel_left_eq] at hd'
    rw [← hp, ← hq, feedDeliveries_injective _ hd']

end Sys2Proof.Machine

/-! PROOFS. R88's predicates on byte sequences are the encodings of the frame rows (30_encoding.md section 3). -/

namespace Sys2Proof.Machine

theorem wf_frameV1_iff {d c k : Byte} {p : List Byte} :
    (Instr.frameV1 d c p k).wf = true ↔
      p.length ≤ 255 ∧ (dirOf d).isSome = true ∧ k = xorSum (coveredV1 c p) := by
  simp only [Instr.wf, Instr.fits, Instr.legal, Bool.and_eq_true, decide_eq_true_eq]; rfl

theorem wf_frameV2_iff {d f k : Byte} {c : Half} {p : List Byte} :
    (Instr.frameV2 d f c p k).wf = true ↔
      p.length ≤ 65535 ∧ (dirOf d).isSome = true ∧ k = crcSum (coveredV2 f c p) := by
  simp only [Instr.wf, Instr.fits, Instr.legal, Bool.and_eq_true, decide_eq_true_eq]; rfl

@[simp] theorem frameBytesV1_length (d c k : Byte) (p : List Byte) : (frameBytesV1 d c p k).length = 6 + p.length := by
  simp [frameBytesV1]; omega

@[simp] theorem frameBytesV2_length (d f k : Byte) (c : Half) (p : List Byte) :
    (frameBytesV2 d f c p k).length = 9 + p.length := by
  simp [frameBytesV2]; omega

theorem frameBytesV1_eq_snoc (d c k : Byte) (p : List Byte) :
    frameBytesV1 d c p k = (syncByte :: tagV1 :: d :: coveredV1 c p) ++ [k] := rfl

theorem frameBytesV2_eq_snoc (d f k : Byte) (c : Half) (p : List Byte) :
    frameBytesV2 d f c p k = (syncByte :: tagV2 :: d :: coveredV2 f c p) ++ [k] := rfl

theorem isV1Frame_frameBytesV1 {d c k : Byte} {p : List Byte} (hp : p.length ≤ 255) :
    isV1Frame (frameBytesV1 d c p k) = true ↔ (Instr.frameV1 d c p k).wf = true := by
  have hlast : (frameBytesV1 d c p k).getLastD 0 = k := by rw [frameBytesV1_eq_snoc, List.getLastD_concat]
  have hbody : ((frameBytesV1 d c p k).drop 3).dropLast = coveredV1 c p := by
    rw [frameBytesV1_eq_snoc]; exact List.dropLast_concat
  have hlen : ((frameBytesV1 d c p k).getD 3 0).toNat = p.length := lenByte_toNat hp
  simp only [isV1Frame, hlast, hbody, hlen, frameBytesV1_length, wf_frameV1_iff]
  simp [frameBytesV1, hp]

theorem isV2Frame_frameBytesV2 {d f k : Byte} {c : Half} {p : List Byte} (hp : p.length ≤ 65535) :
    isV2Frame (frameBytesV2 d f c p k) = true ↔ (Instr.frameV2 d f c p k).wf = true := by
  have hlast : (frameBytesV2 d f c p k).getLastD 0 = k := by rw [frameBytesV2_eq_snoc, List.getLastD_concat]
  have hbody : ((frameBytesV2 d f c p k).drop 3).dropLast = coveredV2 f c p := by
    rw [frameBytesV2_eq_snoc]; exact List.dropLast_concat
  have hlen : 9 + p.length = 9 + ((frameBytesV2 d f c p k).getD 6 0).toNat +
      256 * ((frameBytesV2 d f c p k).getD 7 0).toNat := by
    have h := joinBytes_toNat (highByte (lenHalf p.length)) (lowByte (lenHalf p.length))
    rw [joinBytes_split, lenHalf_toNat hp] at h
    show 9 + p.length = 9 + (lowByte (lenHalf p.length)).toNat + 256 * (highByte (lenHalf p.length)).toNat
    omega
  simp only [isV2Frame, hlast, hbody, ← hlen, frameBytesV2_length, wf_frameV2_iff]
  simp [frameBytesV2, hp]

theorem denoteV1_frameBytesV1 (d c k : Byte) (p : List Byte) :
    denoteV1 (frameBytesV1 d c p k) = (dirOf d).map fun x => ⟨zext16 c, x, p⟩ := by
  simp [denoteV1, frameBytesV1]

theorem denoteV2_frameBytesV2 (d f k : Byte) (c : Half) (p : List Byte) :
    denoteV2 (frameBytesV2 d f c p k) = (dirOf d).map fun x => ⟨c, x, p⟩ := by
  simp [denoteV2, frameBytesV2]

theorem exists_frameBytesV1_of_isV1Frame {w : List Byte} (h : isV1Frame w = true) :
    ∃ d c p k, p.length ≤ 255 ∧ w = frameBytesV1 d c p k := by
  simp only [isV1Frame, Bool.and_eq_true, decide_eq_true_eq] at h
  obtain ⟨⟨⟨⟨⟨h6, hsync⟩, htag⟩, -⟩, hlen⟩, -⟩ := h
  match w, h6 with
  | s :: t :: d :: n :: c :: x :: xs, _ =>
    obtain ⟨p, k, hpk⟩ : ∃ p k, x :: xs = p ++ [k] := ⟨_, _, (List.dropLast_concat_getLast (by simp)).symm⟩
    have hn : p.length = n.toNat := by
      have hl := congrArg List.length hpk
      simp at hl hlen
      omega
    have := n.isLt
    refine ⟨d, c, p, k, by omega, ?_⟩
    rw [frameBytesV1, lenByte_of_toNat hn, ← hpk, ← hsync, ← htag]; rfl

theorem exists_frameBytesV2_of_isV2Frame {w : List Byte} (h : isV2Frame w = true) :
    ∃ d f c p k, p.length ≤ 65535 ∧ w = frameBytesV2 d f c p k := by
  simp only [isV2Frame, Bool.and_eq_true, decide_eq_true_eq] at h
  obtain ⟨⟨⟨⟨⟨h9, hsync⟩, htag⟩, -⟩, hlen⟩, -⟩ := h
  match w, h9 with
  | s :: t :: d :: f :: cLo :: cHi :: nLo :: nHi :: x :: xs, _ =>
    obtain ⟨p, k, hpk⟩ : ∃ p k, x :: xs = p ++ [k] := ⟨_, _, (List.dropLast_concat_getLast (by simp)).symm⟩
    have hn : p.length = (joinBytes nHi nLo).toNat := by
      have hl := congrArg List.length hpk
      rw [joinBytes_toNat]
      simp at hl hlen
      omega
    have := (joinBytes nHi nLo).isLt
    refine ⟨d, f, joinBytes cHi cLo, p, k, by omega, ?_⟩
    rw [frameBytesV2, lenHalf_of_toNat hn]
    simp only [lowByte_joinBytes, highByte_joinBytes]
    rw [← hpk, ← hsync, ← htag]; rfl

theorem isV1Frame_iff {w : List Byte} :
    isV1Frame w = true ↔ ∃ d c p k, (Instr.frameV1 d c p k).wf = true ∧ w = frameBytesV1 d c p k := by
  constructor
  · intro h
    obtain ⟨d, c, p, k, hp, rfl⟩ := exists_frameBytesV1_of_isV1Frame h
    exact ⟨d, c, p, k, (isV1Frame_frameBytesV1 hp).1 h, rfl⟩
  · rintro ⟨d, c, p, k, hwf, rfl⟩
    exact (isV1Frame_frameBytesV1 (wf_frameV1_iff.1 hwf).1).2 hwf

theorem isV2Frame_iff {w : List Byte} :
    isV2Frame w = true ↔ ∃ d f c p k, (Instr.frameV2 d f c p k).wf = true ∧ w = frameBytesV2 d f c p k := by
  constructor
  · intro h
    obtain ⟨d, f, c, p, k, hp, rfl⟩ := exists_frameBytesV2_of_isV2Frame h
    exact ⟨d, f, c, p, k, (isV2Frame_frameBytesV2 hp).1 h, rfl⟩
  · rintro ⟨d, f, c, p, k, hwf, rfl⟩
    exact (isV2Frame_frameBytesV2 (wf_frameV2_iff.1 hwf).1).2 hwf

/-- Settles O55: a frame of a revision is the bytes of a well-formed row, whose fields R88 reads back. -/
theorem wellFormedFramesAreTheEncodings : Obligations.WellFormedFramesAreTheEncodings := by
  intro w
  rw [isV1Frame_iff, isV2Frame_iff]
  constructor <;> constructor
  · rintro ⟨d, c, p, k, hwf, rfl⟩
    exact ⟨d, c, p, k, hwf, rfl, denoteV1_frameBytesV1 d c k p⟩
  · rintro ⟨d, c, p, k, hwf, henc, -⟩
    exact ⟨d, c, p, k, hwf, (Request.burst.inj henc).symm⟩
  · rintro ⟨d, f, c, p, k, hwf, rfl⟩
    exact ⟨d, f, c, p, k, hwf, rfl, denoteV2_frameBytesV2 d f k c p⟩
  · rintro ⟨d, f, c, p, k, hwf, henc, -⟩
    exact ⟨d, f, c, p, k, hwf, (Request.burst.inj henc).symm⟩

end Sys2Proof.Machine

/-! PROOFS. Whole frames and streams (43_parser.md section 7). One fact carries them all: from `INIT`, all bytes of a
well-formed frame
but the last give only `None`, and then the checksum byte alone decides (`feedsPure_all_but_last`). -/

namespace Sys2Proof.Machine

/-! ### The payload of a frame, empty or not -/

/-- R162, R168: under V1 a frame's whole payload leads to `Checksum`, at once where there is none. -/
theorem feedsPure_wholePayloadV1 {p : ParserState} {xs : List Byte} (hrev : p.rev = .v1) (hidx : p.idx = false)
    (hphase : p.phase = payloadOrChecksum p.remaining) (hpay : p.payload = []) (hlen : xs.length = p.remaining.toNat) :
    feedsPure p xs = .ok ({ p with payload := xs, remaining := 0, xorAcc := xorBulk p.xorAcc xs, phase := .checksum },
      List.replicate xs.length .noFrame) := by
  cases xs with
  | nil =>
    have hr : p.remaining = 0 := BitVec.eq_of_toNat_eq hlen.symm
    obtain ⟨ph, rev, idx, dir, cmd, rem, pay, xa, ca⟩ := p
    simp_all [feedsPure, payloadOrChecksum]
  | cons x xs =>
    have hr : p.remaining ≠ 0 := by rintro h; simp [h] at hlen
    have hs : p.stateId = some .s6 := stateId_of_fields .s6 (by rw [hphase, payloadOrChecksum, if_neg hr]; rfl) hrev hidx
    have hlt := p.remaining.isLt
    rw [feedsPure_payloadV1 hs (List.cons_ne_nil x xs) hlen.le (by rw [hpay, hlen]; simp; omega), if_pos hlen, hpay, hlen]
    simp

/-- R167, R169: the same under V2. -/
theorem feedsPure_wholePayloadV2 {p : ParserState} {xs : List Byte} (hrev : p.rev = .v2) (hidx : p.idx = false)
    (hphase : p.phase = payloadOrChecksum p.remaining) (hpay : p.payload = []) (hlen : xs.length = p.remaining.toNat) :
    feedsPure p xs = .ok ({ p with payload := xs, remaining := 0, crcAcc := crcBulk p.crcAcc xs, phase := .checksum },
      List.replicate xs.length .noFrame) := by
  cases xs with
  | nil =>
    have hr : p.remaining = 0 := BitVec.eq_of_toNat_eq hlen.symm
    obtain ⟨ph, rev, idx, dir, cmd, rem, pay, xa, ca⟩ := p
    simp_all [feedsPure, payloadOrChecksum]
  | cons x xs =>
    have hr : p.remaining ≠ 0 := by rintro h; simp [h] at hlen
    have hs : p.stateId = some .s13 :=
      stateId_of_fields .s13 (by rw [hphase, payloadOrChecksum, if_neg hr]; rfl) hrev hidx
    have hlt := p.remaining.isLt
    rw [feedsPure_payloadV2 hs (List.cons_ne_nil x xs) hlen.le (by rw [hpay, hlen]; simp; omega), if_pos hlen, hpay, hlen]
    simp

/-! ### The parser with one byte of a frame to come -/

/-- The V1 parser that has received a frame's fields but not its checksum (R32's row of S7). -/
def awaitingChecksumV1 (dir : Direction) (c : Byte) (p : List Byte) : ParserState :=
  { ParserState.init with
    phase := .checksum, rev := .v1, dir := dir, cmd := zext16 c, payload := p, xorAcc := xorSum (coveredV1 c p) }

/-- The V2 parser that has received a frame's fields but not its checksum (R32's row of S14). -/
def awaitingChecksumV2 (dir : Direction) (f : Byte) (c : Half) (p : List Byte) : ParserState :=
  { ParserState.init with
    phase := .checksum, rev := .v2, dir := dir, cmd := c, payload := p, crcAcc := crcBulk crcInit (coveredV2 f c p) }

/-- What the checksum byte `x` gives where `k` is the one computed for the Frame `f` (R170 to R173). -/
def checksumResult (f : Frame) (k x : Byte) : FeedResult :=
  if x = k then .frame f else .err (.checksumMismatch x k)

/-- R153, R154, R157 to R159, R161, R162: the first five bytes of a V1 frame. -/
theorem feedsPure_headerV1 {d : Byte} {dir : Direction} (hd : dirOf d = some dir) (n c : Byte) :
    feedsPure ParserState.init [syncByte, tagV1, d, n, c] =
      .ok ({ ParserState.init with
          phase := payloadOrChecksum (zext16 n), rev := .v1, dir := dir, cmd := zext16 c, remaining := zext16 n,
          xorAcc := xorSum [n, c] }, List.replicate 5 .noFrame) := by
  simp [feedsPure, feedPure, ParserState.stateId, ParserState.control, controlId, ParserState.init, hd, xorSum]

/-- R153, R155, R157 to R159, R163 to R167: the first eight bytes of a V2 frame. -/
theorem feedsPure_headerV2 {d : Byte} {dir : Direction} (hd : dirOf d = some dir) (f : Byte) (c n : Half) :
    feedsPure ParserState.init [syncByte, tagV2, d, f, lowByte c, highByte c, lowByte n, highByte n] =
      .ok ({ ParserState.init with
          phase := payloadOrChecksum n, rev := .v2, dir := dir, cmd := c, remaining := n,
          crcAcc := crcBulk crcInit [f, lowByte c, highByte c, lowByte n, highByte n] },
        List.replicate 8 .noFrame) := by
  simp [feedsPure, feedPure, ParserState.stateId, ParserState.control, controlId, ParserState.init, ParserState.announced,
    hd, tagV2_ne_tagV1]

theorem feedsPure_fieldsV1 {d : Byte} {dir : Direction} (hd : dirOf d = some dir) (c : Byte) {p : List Byte}
    (hp : p.length ≤ 255) :
    feedsPure ParserState.init (syncByte :: tagV1 :: d :: coveredV1 c p) =
      .ok (awaitingChecksumV1 dir c p, List.replicate (5 + p.length) .noFrame) := by
  have hlen : p.length = (zext16 (lenByte p.length)).toNat := by rw [zext16_toNat, lenByte_toNat hp]
  rw [List.replicate_add]
  exact feedsPure_append (feedsPure_headerV1 hd (lenByte p.length) c) (feedsPure_wholePayloadV1 rfl rfl rfl rfl hlen)

theorem feedsPure_fieldsV2 {d : Byte} {dir : Direction} (hd : dirOf d = some dir) (f : Byte) (c : Half) {p : List Byte}
    (hp : p.length ≤ 65535) :
    feedsPure ParserState.init (syncByte :: tagV2 :: d :: coveredV2 f c p) =
      .ok (awaitingChecksumV2 dir f c p, List.replicate (8 + p.length) .noFrame) := by
  rw [List.replicate_add]
  exact feedsPure_append (feedsPure_headerV2 hd f c (lenHalf p.length))
    (feedsPure_wholePayloadV2 rfl rfl rfl rfl (lenHalf_toNat hp).symm)

/-- R170, R171. -/
theorem feedPure_of_s7 {p : ParserState} (hs : p.stateId = some .s7) (x : Byte) :
    feedPure p x = .ok (ParserState.init, checksumResult p.assembled p.xorAcc x) := by
  simp only [feedPure, hs, checksumResult]
  split_ifs <;> rfl

/-- R172, R173. -/
theorem feedPure_of_s14 {p : ParserState} (hs : p.stateId = some .s14) (x : Byte) :
    feedPure p x = .ok (ParserState.init, checksumResult p.assembled (crcFinal p.crcAcc) x) := by
  simp only [feedPure, hs, checksumResult]
  split_ifs <;> rfl

theorem feedPure_awaitingChecksumV1 (dir : Direction) (c : Byte) (p : List Byte) (x : Byte) :
    feedPure (awaitingChecksumV1 dir c p) x =
      .ok (ParserState.init, checksumResult ⟨zext16 c, dir, p⟩ (xorSum (coveredV1 c p)) x) := feedPure_of_s7 rfl x

theorem feedPure_awaitingChecksumV2 (dir : Direction) (f : Byte) (c : Half) (p : List Byte) (x : Byte) :
    feedPure (awaitingChecksumV2 dir f c p) x =
      .ok (ParserState.init, checksumResult ⟨c, dir, p⟩ (crcSum (coveredV2 f c p)) x) := feedPure_of_s14 rfl x

/-! ### Every well-formed frame, of either revision -/

/-- R88: `w` is a well-formed frame, of V1 or of V2, and `f` is the Frame it denotes. -/
def Denotes (w : List Byte) (f : Frame) : Prop :=
  isV1Frame w = true ∧ denoteV1 w = some f ∨ isV2Frame w = true ∧ denoteV2 w = some f

theorem denotes_frameBytesV1 {d c k : Byte} {p : List Byte} {dir : Direction} (hwf : (Instr.frameV1 d c p k).wf = true)
    (hd : dirOf d = some dir) : Denotes (frameBytesV1 d c p k) ⟨zext16 c, dir, p⟩ :=
  .inl ⟨isV1Frame_iff.2 ⟨d, c, p, k, hwf, rfl⟩, by rw [denoteV1_frameBytesV1, hd]; rfl⟩

theorem denotes_frameBytesV2 {d f k : Byte} {c : Half} {p : List Byte} {dir : Direction}
    (hwf : (Instr.frameV2 d f c p k).wf = true) (hd : dirOf d = some dir) :
    Denotes (frameBytesV2 d f c p k) ⟨c, dir, p⟩ :=
  .inr ⟨isV2Frame_iff.2 ⟨d, f, c, p, k, hwf, rfl⟩, by rw [denoteV2_frameBytesV2, hd]; rfl⟩

/-- R88: every well-formed frame denotes a Frame, its direction byte being one of the three. -/
theorem exists_denotes {w : List Byte} (h : isV1Frame w = true ∨ isV2Frame w = true) : ∃ f, Denotes w f := by
  rcases h with h | h
  · obtain ⟨d, c, p, k, hwf, rfl⟩ := isV1Frame_iff.1 h
    obtain ⟨dir, hd⟩ := Option.isSome_iff_exists.1 (wf_frameV1_iff.1 hwf).2.1
    exact ⟨_, denotes_frameBytesV1 hwf hd⟩
  · obtain ⟨d, f, c, p, k, hwf, rfl⟩ := isV2Frame_iff.1 h
    obtain ⟨dir, hd⟩ := Option.isSome_iff_exists.1 (wf_frameV2_iff.1 hwf).2.1
    exact ⟨_, denotes_frameBytesV2 hwf hd⟩

/-- R170 to R173: all bytes of a frame but the last give `None`, and lead where the byte that was the last decides. -/
theorem feedsPure_all_but_last {w : List Byte} {f : Frame} (h : Denotes w f) :
    ∃ u k q, w = u ++ [k] ∧ feedsPure ParserState.init u = .ok (q, List.replicate u.length .noFrame) ∧
      ∀ x, feedPure q x = .ok (ParserState.init, checksumResult f k x) := by
  rcases h with ⟨hw, hf⟩ | ⟨hw, hf⟩
  · obtain ⟨d, c, p, k, hwf, rfl⟩ := isV1Frame_iff.1 hw
    obtain ⟨hp, -, rfl⟩ := wf_frameV1_iff.1 hwf
    rw [denoteV1_frameBytesV1, Option.map_eq_some_iff] at hf
    obtain ⟨dir, hd, rfl⟩ := hf
    have hu := feedsPure_fieldsV1 hd c hp
    refine ⟨_, _, _, frameBytesV1_eq_snoc .., ?_, feedPure_awaitingChecksumV1 dir c p⟩
    rw [hu, ← length_of_feedsPure hu, List.length_replicate]
  · obtain ⟨d, fl, c, p, k, hwf, rfl⟩ := isV2Frame_iff.1 hw
    obtain ⟨hp, -, rfl⟩ := wf_frameV2_iff.1 hwf
    rw [denoteV2_frameBytesV2, Option.map_eq_some_iff] at hf
    obtain ⟨dir, hd, rfl⟩ := hf
    have hu := feedsPure_fieldsV2 hd fl c hp
    refine ⟨_, _, _, frameBytesV2_eq_snoc .., ?_, feedPure_awaitingChecksumV2 dir fl c p⟩
    rw [hu, ← length_of_feedsPure hu, List.length_replicate]

/-- R177: a well-formed frame fed from `INIT` is delivered with its last byte. -/
theorem feedsPure_of_denotes {w : List Byte} {f : Frame} (h : Denotes w f) :
    feedsPure ParserState.init w =
      .ok (ParserState.init, List.replicate (w.length - 1) .noFrame ++ [.frame f]) := by
  obtain ⟨u, k, q, rfl, hu, hk⟩ := feedsPure_all_but_last h
  have hlast : feedPure q k = .ok (ParserState.init, .frame f) := by rw [hk, checksumResult, if_pos rfl]
  have hlen : (u ++ [k]).length - 1 = u.length := by simp
  rw [hlen]
  exact feedsPure_append hu (feedsPure_singleton_eq_ok.2 ⟨_, hlast, rfl⟩)

/-- R177 on the machine. -/
theorem bytesTo_of_denotes {w : List Byte} {f : Frame} {s : State} (hs : s.curParser = ParserState.init)
    (h : Denotes w f) : BytesTo w s ParserState.init (List.replicate (w.length - 1) .noFrame ++ [.frame f]) :=
  bytesTo_iff.2 (hs ▸ feedsPure_of_denotes h)

/-- Settles O39: the row's bytes are a frame that denotes its fields. -/
theorem wellFormedV1FrameIsDelivered : Obligations.WellFormedV1FrameIsDelivered := by
  intro d c p k dir s hs hwf hd
  have hlen : (frameBytesV1 d c p k).length - 1 = 5 + p.length := by rw [frameBytesV1_length]; omega
  rw [runsTo_frameV1, ← hlen]
  exact bytesTo_of_denotes hs (denotes_frameBytesV1 hwf hd)

/-- Settles O40: the row's bytes are a frame that denotes its fields, whatever the flag. -/
theorem wellFormedV2FrameIsDelivered : Obligations.WellFormedV2FrameIsDelivered := by
  intro d f c p k dir s hs hwf hd
  have hlen : (frameBytesV2 d f c p k).length - 1 = 8 + p.length := by rw [frameBytesV2_length]; omega
  rw [runsTo_frameV2, ← hlen]
  exact bytesTo_of_denotes hs (denotes_frameBytesV2 hwf hd)

/-- Settles O44: the last byte alone decides, and any but the computed one is the mismatch. -/
theorem wrongLastByteIsChecksumMismatch : Obligations.WrongLastByteIsChecksumMismatch := by
  intro w k x s hs hframe hx
  obtain ⟨f, hf⟩ := exists_denotes hframe
  obtain ⟨u, k', q, hw, hu, hk⟩ := feedsPure_all_but_last hf
  obtain ⟨rfl, hlast⟩ := List.append_inj' hw rfl
  cases hlast
  have hbad : feedPure q x = .ok (ParserState.init, .err (.checksumMismatch x k)) := by rw [hk, checksumResult, if_neg hx]
  rw [bytesTo_iff, hs]
  exact feedsPure_append hu (feedsPure_singleton_eq_ok.2 ⟨_, hbad, rfl⟩)

/-- Settles O43: what is left of a frame without its last byte, cut anywhere, still gives only `None`. -/
theorem properPrefixOfAFrameGivesOnlyNone : Obligations.ProperPrefixOfAFrameGivesOnlyNone := by
  intro w u v s hs hframe hw hv
  obtain ⟨f, hf⟩ := exists_denotes hframe
  obtain ⟨u', k, q, hw', hu', -⟩ := feedsPure_all_but_last hf
  have hcut : u' = u ++ v.dropLast := by
    have h := congrArg List.dropLast (hw'.symm.trans hw)
    rwa [List.dropLast_concat, List.dropLast_append_of_ne_nil hv] at h
  rw [hcut] at hu'
  obtain ⟨p, hp⟩ := feedsPure_noFrame_left hu'
  exact ⟨p, bytesTo_iff.2 (hs ▸ hp)⟩

/-! ### Noise, and streams of frames and noise -/

/-- R152, repeated. -/
theorem feedsPure_noise {g : List Byte} (h : syncByte ∉ g) :
    feedsPure ParserState.init g = .ok (ParserState.init, List.replicate g.length .noFrame) := by
  induction g with
  | nil => rfl
  | cons b g ih =>
    obtain ⟨hb, hg⟩ := not_or.1 (mt List.mem_cons.2 h)
    exact feedsPure_cons (by simp [feedPure, Ne.symm hb]) (ih hg)

/-- Settles O42: skipping is no state change, so each byte finds the parser in `INIT` again. -/
theorem noiseLeavesTheParserInInit : Obligations.NoiseLeavesTheParserInInit := by
  intro g s hs hg
  exact bytesTo_iff.2 (hs ▸ feedsPure_noise hg)

/-- Settles O45, by induction on the items: noise and a frame each start and end in `INIT`. -/
theorem streamOfFramesIsDeliveredInOrder : Obligations.StreamOfFramesIsDeliveredInOrder := by
  intro items tail s hs hitems htail
  rw [bytesTo_iff, hs]
  refine feedsPure_append ?_ (feedsPure_noise htail)
  clear htail
  induction items with
  | nil => rfl
  | cons x items ih =>
    obtain ⟨⟨hnoise, hframe⟩, hrest⟩ := List.forall_mem_cons.1 hitems
    have hitem := feedsPure_append (feedsPure_noise hnoise) (feedsPure_of_denotes hframe)
    rw [← List.append_assoc, ← List.replicate_add] at hitem
    exact feedsPure_append hitem (ih hrest)

/-! ### Serialize, then parse -/

/-- R134: the command a V1 frame carries is the command with its upper byte cut. -/
theorem zext16_lowByte (h : Half) : zext16 (lowByte h) = h &&& 0xFF := by
  have hand : h.toNat &&& 255 = h.toNat % 256 := Nat.and_two_pow_sub_one_eq_mod h.toNat 8
  apply BitVec.eq_of_toNat_eq
  rw [zext16_toNat, lowByte_toNat, ← hand, BitVec.toNat_and]; rfl

theorem cut_command_eq_iff (f : Frame) : { f with command := f.command &&& 0xFF } = f ↔ f.command.toNat ≤ 255 := by
  have hcut : f.command &&& 0xFF = f.command ↔ f.command.toNat % 256 = f.command.toNat := by
    rw [← zext16_lowByte, ← BitVec.toNat_inj, zext16_toNat, lowByte_toNat]
  constructor
  · intro h
    have := hcut.1 (congrArg Frame.command h)
    omega
  · intro h
    rw [hcut.2 (by omega)]

/-- R137 under V1. -/
theorem serBytesV1_denotes {f : Frame} (h : f.payload.length ≤ 255) :
    isV1Frame (serBytesV1 f) = true ∧ denoteV1 (serBytesV1 f) = some { f with command := f.command &&& 0xFF } := by
  rw [serBytesV1_eq, denoteV1_frameBytesV1, dirOf_dirByte, zext16_lowByte, isV1Frame_iff]
  exact ⟨⟨_, _, _, _, wf_frameV1_iff.2 ⟨h, by simp [dirOf_dirByte], rfl⟩, rfl⟩, rfl⟩

/-- R137 under V2. -/
theorem serBytesV2_denotes {f : Frame} (h : f.payload.length ≤ 65535) :
    isV2Frame (serBytesV2 f) = true ∧ denoteV2 (serBytesV2 f) = some f := by
  rw [serBytesV2_eq, denoteV2_frameBytesV2, dirOf_dirByte, isV2Frame_iff]
  exact ⟨⟨_, _, _, _, _, wf_frameV2_iff.2 ⟨h, by simp [dirOf_dirByte], rfl⟩, rfl⟩, rfl⟩

theorem exec_serV1 {f : Frame} (h : f.payload.length ≤ 255) (n : Nat) (s : State) :
    exec (.serV1 f n) s = .next (s.serialize (6 + f.payload.length) n (serBytesV1 f)) := execSerV1_eq h n s

theorem exec_serV2 {f : Frame} (h : f.payload.length ≤ 65535) (n : Nat) (s : State) :
    exec (.serV2 f n) s = .next (s.serialize (9 + f.payload.length) n (serBytesV2 f)) := execSerV2_eq h n s

theorem serialize_self_delivered (s : State) (n : Nat) (bs : List Byte) :
    (s.serialize n n bs).delivered = s.delivered ++ [⟨s.cur, .ser (.ok bs)⟩] := by
  rw [serialize_eq]; rfl

/-- R133: the only bytes a serialize call delivers are those it was given. -/
theorem eq_of_serialize_delivered {s : State} {size n : Nat} {bs bs' : List Byte}
    (h : (s.serialize size n bs).delivered = s.delivered ++ [⟨s.cur, .ser (.ok bs')⟩]) : bs' = bs := by
  by_cases hn : n = size
  · subst hn
    rw [serialize_self_delivered] at h
    simpa using h.symm
  · rw [serialize_ne s hn, deliver_delivered] at h
    simp at h

/-- Settles O17: the bytes delivered are those of a frame row whose fields are the Frame's. -/
theorem serializedBytesDenoteTheirFrame : Obligations.SerializedBytesDenoteTheirFrame := by
  intro f n s t bs hdel
  constructor
  · intro ht
    have hp : f.payload.length ≤ 255 := by
      by_contra hover
      rw [show exec (.serV1 f n) s = _ from execSerV1_over (not_le.1 hover) n s] at ht
      cases ht
    rw [exec_serV1 hp] at ht
    cases ht
    rw [eq_of_serialize_delivered hdel]
    exact serBytesV1_denotes hp
  · intro ht
    have hp : f.payload.length ≤ 65535 := by
      by_contra hover
      rw [show exec (.serV2 f n) s = _ from execSerV2_over (not_le.1 hover) n s] at ht
      cases ht
    rw [exec_serV2 hp] at ht
    cases ht
    rw [eq_of_serialize_delivered hdel]
    exact ⟨(serBytesV2_denotes hp).1, (serBytesV2_denotes hp).2, rfl⟩

/-- Settles O41: the serialized bytes denote the Frame, its command cut under V1, and what they denote is delivered. -/
theorem serializeThenParseRoundTrips : Obligations.SerializeThenParseRoundTrips := by
  intro f u s hs
  constructor
  · intro hp
    have hlen : (serBytesV1 f).length - 1 = 5 + f.payload.length := by rw [serBytesV1_length]; omega
    refine ⟨_, _, _, exec_serV1 hp _ u, serialize_self_delivered .., rfl, ?_, cut_command_eq_iff f⟩
    rw [← hlen]
    exact bytesTo_of_denotes hs (.inl (serBytesV1_denotes hp))
  · intro hp
    have hlen : (serBytesV2 f).length - 1 = 8 + f.payload.length := by rw [serBytesV2_length]; omega
    refine ⟨_, _, exec_serV2 hp _ u, serialize_self_delivered .., ?_⟩
    rw [← hlen]
    exact bytesTo_of_denotes hs (.inr (serBytesV2_denotes hp))

end Sys2Proof.Machine

/-! PROOFS. Decoding and encoding (30_encoding.md sections 1 and 4). -/

namespace Sys2Proof.Machine

/-! ### The byte rows: decoding is the inverse of encoding -/

theorem fits_asSkip {b : Byte} : (Instr.asSkip b).fits = true ↔ b ≠ syncByte := by
  simp only [Instr.fits, decide_eq_true_eq]

theorem fits_vtBad {b : Byte} : (Instr.vtBad b).fits = true ↔ b ≠ tagV1 ∧ b ≠ tagV2 := by
  simp only [Instr.fits, Bool.and_eq_true, decide_eq_true_eq]

theorem dirOf_eq_none_iff {b : Byte} : dirOf b = none ↔ b ≠ dirToByte ∧ b ≠ dirFromByte ∧ b ≠ dirUnsByte := by
  unfold dirOf
  split_ifs <;> simp_all

theorem fits_dirBad {b : Byte} :
    (Instr.dirBad b).fits = true ↔ b ≠ dirToByte ∧ b ≠ dirFromByte ∧ b ≠ dirUnsByte := by
  rw [← dirOf_eq_none_iff]; exact Option.isNone_iff_eq_none

/-- R81: the row a byte is decoded as is a row of that byte whose class and control state hold. -/
theorem encode_fits_encodable_of_decodeByte {c : Context} {b : Byte} {i : Instr} (h : decodeByte c b = some i) :
    encode i = .byte b ∧ i.fits = true ∧ i.encodable c = true := by
  obtain ⟨st, x, f⟩ := c
  rw [decodeByte_eq, Option.some.injEq] at h
  subst h
  cases st <;> dsimp only
  case s0 =>
    split_ifs with hb
    · exact ⟨hb ▸ rfl, rfl, rfl⟩
    · exact ⟨rfl, fits_asSkip.2 hb, rfl⟩
  case s1 =>
    split_ifs with h1 h2
    · exact ⟨h1 ▸ rfl, rfl, rfl⟩
    · exact ⟨h2 ▸ rfl, rfl, rfl⟩
    · exact ⟨rfl, fits_vtBad.2 ⟨h1, h2⟩, rfl⟩
  case s2 | s3 =>
    split_ifs with h1 h2 h3
    · exact ⟨h1 ▸ rfl, rfl, rfl⟩
    · exact ⟨h2 ▸ rfl, rfl, rfl⟩
    · exact ⟨h3 ▸ rfl, rfl, rfl⟩
    · exact ⟨rfl, fits_dirBad.2 ⟨h1, h2, h3⟩, rfl⟩
  case s7 | s14 =>
    split_ifs with hk
    · exact ⟨rfl, rfl, decide_eq_true ⟨rfl, hk⟩⟩
    · exact ⟨rfl, rfl, decide_eq_true ⟨rfl, hk⟩⟩
  all_goals exact ⟨rfl, rfl, rfl⟩

/-- R81: a byte row, where it may stand, is what its byte is decoded as. -/
theorem decodeByte_of_encode {c : Context} {b : Byte} {i : Instr} (henc : encode i = .byte b) (hfits : i.fits = true)
    (hstands : i.encodable c = true) : decodeByte c b = some i := by
  obtain ⟨st, x, f⟩ := c
  rw [decodeByte_eq]
  cases i <;> simp only [encode, Request.byte.injEq, reduceCtorEq] at henc <;> subst henc <;>
    simp only [Instr.encodable, decide_eq_true_eq] at hstands
  case dirTo | dirFrom | dirUns => rcases hstands with rfl | rfl <;> rfl
  case dirBad => rcases hstands with rfl | rfl <;> simp [fits_dirBad.1 hfits]
  case asSkip => simp [hstands, fits_asSkip.1 hfits]
  case vtBad => simp [hstands, fits_vtBad.1 hfits]
  case asSync | vtV1 | vtV2 => subst hstands; rfl
  all_goals simp [hstands]

theorem decodeByte_eq_some_iff {c : Context} {b : Byte} {i : Instr} :
    decodeByte c b = some i ↔ encode i = .byte b ∧ i.fits = true ∧ i.encodable c = true :=
  ⟨encode_fits_encodable_of_decodeByte, fun ⟨h₁, h₂, h₃⟩ => decodeByte_of_encode h₁ h₂ h₃⟩

/-- Settles O35: in each control state the rows leave no byte out, and the one a byte decodes to is the only one it encodes. -/
theorem byteClassesAreExhaustiveAndDisjoint : Obligations.ByteClassesAreExhaustiveAndDisjoint := by
  intro c b
  refine ⟨_, decodeByte_eq c b, fun j => ?_⟩
  rw [← decodeByte_eq_some_iff, decodeByte_eq, Option.some.injEq, eq_comm]

/-! ### Operations and frames -/

theorem isOperation_of_encode_op {i j : Instr} (h : encode i = .op j) : j = i ∧ i.isOperation = true := by
  cases i <;> cases h <;> exact ⟨rfl, rfl⟩

theorem frame_of_encode_burst {i : Instr} {w : List Byte} (h : encode i = .burst w) :
    (∃ d c p k, i = .frameV1 d c p k ∧ w = frameBytesV1 d c p k) ∨
      ∃ d f c p k, i = .frameV2 d f c p k ∧ w = frameBytesV2 d f c p k := by
  cases i <;> cases h
  case frameV1 d c p k => exact .inl ⟨d, c, p, k, rfl, rfl⟩
  case frameV2 d f c p k => exact .inr ⟨d, f, c, p, k, rfl, rfl⟩

theorem fits_frameV1 {d c k : Byte} {p : List Byte} : (Instr.frameV1 d c p k).fits = true ↔ p.length ≤ 255 :=
  decide_eq_true_iff

theorem fits_frameV2 {d f k : Byte} {c : Half} {p : List Byte} :
    (Instr.frameV2 d f c p k).fits = true ↔ p.length ≤ 65535 := decide_eq_true_iff

/-- R70, R80: the frame decoder reads a frame row's bytes as that row, and leaves what follows them. -/
theorem decodeFrame_of_encode {i : Instr} {w : List Byte} (henc : encode i = .burst w) (hfits : i.fits = true)
    (rest : List Byte) : decodeFrame (w ++ rest) = some (i, rest) := by
  obtain ⟨d, c, p, k, rfl, rfl⟩ | ⟨d, f, c, p, k, rfl, rfl⟩ := frame_of_encode_burst henc
  · exact decodeFrame_frameBytesV1 d c k (fits_frameV1.1 hfits) rest
  · exact decodeFrame_frameBytesV2 d f c k (fits_frameV2.1 hfits) rest

/-- Settles O53: by what the encoding is, a byte, a frame's bytes, or the operation itself. -/
theorem decodeOfEncodeIsTheInstruction : Obligations.DecodeOfEncodeIsTheInstruction := by
  intro i c hfits hstands
  cases henc : encode i with
  | byte b => simp [decode, decodeByte_of_encode henc hfits hstands]
  | burst w =>
    have h := decodeFrame_of_encode henc hfits []
    rw [List.append_nil] at h
    simp [decode, h]
  | op j =>
    obtain ⟨rfl, hop⟩ := isOperation_of_encode_op henc
    simp [decode, hop, hfits]

theorem decodeBodyV1_eq_some {body rest : List Byte} {i : Instr} (h : decodeBodyV1 body = some (i, rest)) :
    ∃ d c p k, i = .frameV1 d c p k ∧ p.length ≤ 255 ∧
      syncByte :: tagV1 :: body = frameBytesV1 d c p k ++ rest := by
  unfold decodeBodyV1 at h
  split at h
  case h_2 => cases h
  case h_1 d n c tl =>
    split at h
    case h_2 => cases h
    case h_1 k after hdrop =>
      cases h
      have hn : n.toNat ≤ tl.length := by
        have := congrArg List.length hdrop
        simp at this
        omega
      have hlen : (tl.take n.toNat).length = n.toNat := by simpa using hn
      have := n.isLt
      refine ⟨d, c, _, k, rfl, by omega, ?_⟩
      have htl : tl.take n.toNat ++ k :: rest = tl := by rw [← hdrop, List.take_append_drop]
      rw [frameBytesV1, lenByte_of_toNat hlen]
      simp [htl]

theorem decodeBodyV2_eq_some {body rest : List Byte} {i : Instr} (h : decodeBodyV2 body = some (i, rest)) :
    ∃ d f c p k, i = .frameV2 d f c p k ∧ p.length ≤ 65535 ∧
      syncByte :: tagV2 :: body = frameBytesV2 d f c p k ++ rest := by
  unfold decodeBodyV2 at h
  split at h
  case h_2 => cases h
  case h_1 d f cLo cHi nLo nHi tl =>
    split at h
    case h_2 => cases h
    case h_1 k after hdrop =>
      cases h
      have hn : (joinBytes nHi nLo).toNat ≤ tl.length := by
        have := congrArg List.length hdrop
        simp at this
        omega
      have hlen : (tl.take (joinBytes nHi nLo).toNat).length = (joinBytes nHi nLo).toNat := by simpa using hn
      have := (joinBytes nHi nLo).isLt
      refine ⟨d, f, joinBytes cHi cLo, _, k, rfl, by omega, ?_⟩
      have htl : tl.take (joinBytes nHi nLo).toNat ++ k :: rest = tl := by rw [← hdrop, List.take_append_drop]
      rw [frameBytesV2, lenHalf_of_toNat hlen]
      simp [htl]

/-- R70, R80: what the frame decoder answers is a frame row whose bytes it has read. -/
theorem decodeFrame_sound {bs rest : List Byte} {i : Instr} (h : decodeFrame bs = some (i, rest)) :
    ∃ w, encode i = .burst w ∧ bs = w ++ rest ∧ i.fits = true := by
  unfold decodeFrame at h
  split at h
  case h_2 => cases h
  case h_1 s t body =>
    split_ifs at h with hs ht ht'
    · obtain ⟨d, c, p, k, rfl, hp, hbs⟩ := decodeBodyV1_eq_some h
      exact ⟨_, rfl, by rw [hs, ht, hbs], fits_frameV1.2 hp⟩
    · obtain ⟨d, f, c, p, k, rfl, hp, hbs⟩ := decodeBodyV2_eq_some h
      exact ⟨_, rfl, by rw [hs, ht', hbs], fits_frameV2.2 hp⟩

/-- Settles O54: a frame row's bytes are its header, its fields, and as many payload bytes as its length field says. -/
theorem decodedFramesAreTheirOwnEncoding : Obligations.DecodedFramesAreTheirOwnEncoding :=
  fun _ _ _ h => decodeFrame_sound h

/-! ### A byte row runs exactly where R81 selects it -/

theorem whenSelected_refused {c : Bool} {t : State} (h : c ≠ true) : whenSelected c t = .refused .rowNotSelected := by
  rw [whenSelected, if_neg h]

/-- R81: where a byte row may not stand it is refused. Each row's test is its control state, with its class or its side of the
accumulator. -/
theorem exec_byteRow_refused {s : State} {i : Instr} {b : Byte} (henc : encode i = .byte b)
    (hout : ∀ c, s.curParser.context = some c → i.fits = true → i.encodable c ≠ true) :
    exec i s = .refused .rowNotSelected := by
  have hst : ∀ st, s.controlIs st = true → i.fits = true →
      i.encodable ⟨st, s.curParser.xorAcc, crcFinal s.curParser.crcAcc⟩ ≠ true :=
    fun st hs => hout _ (context_of_stateId (controlIs_iff.1 hs))
  cases i <;> cases henc
  case v1Pay | v2Pay => exact if_neg fun hs => hst _ hs rfl rfl
  case v2LenHi =>
    have hoff : s.controlIs .s12 ≠ true := fun hs => hst _ hs rfl rfl
    simp [exec, execV2LenHi, hoff]
  case dirTo | dirFrom | dirUns =>
    refine whenSelected_refused fun hs => ?_
    rcases Bool.or_eq_true_iff.1 hs with hs | hs <;> exact hst _ hs rfl rfl
  case dirBad =>
    refine whenSelected_refused fun hs => ?_
    obtain ⟨hs, hfits⟩ := Bool.and_eq_true_iff.1 hs
    rcases Bool.or_eq_true_iff.1 hs with hs | hs <;> exact hst _ hs hfits rfl
  case asSkip =>
    refine whenSelected_refused fun hs => ?_
    obtain ⟨hs, hfits⟩ := Bool.and_eq_true_iff.1 hs
    exact hst _ hs hfits rfl
  case vtBad =>
    refine whenSelected_refused fun hs => ?_
    rw [Bool.and_assoc] at hs
    obtain ⟨hs, hfits⟩ := Bool.and_eq_true_iff.1 hs
    exact hst _ hs hfits rfl
  case v1CkOk | v1CkBad | v2CkOk | v2CkBad =>
    refine whenSelected_refused fun hs => ?_
    obtain ⟨hs, hk⟩ := Bool.and_eq_true_iff.1 hs
    exact hst _ hs rfl (decide_eq_true ⟨rfl, of_decide_eq_true hk⟩)
  all_goals exact whenSelected_refused fun hs => hst _ hs rfl rfl

/-- Settles O36: the row decoded is what `P.FEED` runs; a row of the same byte that may stand there would be decoded too. -/
theorem feedRunsTheRowTheMapSelects : Obligations.FeedRunsTheRowTheMapSelects := by
  intro s c b i hc hi
  refine ⟨exec_pFeed_of_decodeByte hc hi, fun j hj hne => exec_byteRow_refused hj fun c' hc' hfits hstands => hne ?_⟩
  obtain rfl : c = c' := Option.some.inj (hc.symm.trans hc')
  exact Option.some.inj ((decodeByte_of_encode hj hfits hstands).symm.trans hi)

end Sys2Proof.Machine

/-! PROOFS. R32's invariant of a ParserState (10_state.md section 2): every byte is accepted and keeps it. -/

namespace Sys2Proof.Machine

/-- A `P.FEED` as R150 and R32 want it: it has a result, keeps the invariant, leaves `INIT` behind a Frame or an error, and
what it
delivers is sound. -/
def FeedsWell (p : ParserState) (b : Byte) : Prop :=
  ∃ q r, feedPure p b = .ok (q, r) ∧ ParserInv q ∧ (r ≠ .noFrame → q = ParserState.init) ∧ ResultSound (.feed r)

theorem parserInv_init : ParserInv ParserState.init := rfl

theorem feedsWell_of_noFrame {p q : ParserState} {b : Byte} (h : feedPure p b = .ok (q, .noFrame)) (hq : ParserInv q) :
    FeedsWell p b := ⟨q, .noFrame, h, hq, fun hne => absurd rfl hne, trivial⟩

theorem feedsWell_of_result {p : ParserState} {b : Byte} {r : FeedResult} (h : feedPure p b = .ok (ParserState.init, r))
    (hr : ResultSound (.feed r)) : FeedsWell p b := ⟨_, r, h, parserInv_init, fun _ => rfl, hr⟩

/-- R34, R203: what a checksum byte gives is sound, whatever it is. -/
theorem resultSound_checksumResult {f : Frame} (hf : f.payload.length ≤ 65535) (k x : Byte) :
    ResultSound (.feed (checksumResult f k x)) := by
  unfold checksumResult
  split_ifs with hx
  · exact decide_eq_true hf
  · exact hx

/-- R168, with nothing in the way of the byte. -/
theorem feedPure_takePayloadV1 {p : ParserState} (hs : p.stateId = some .s6) (hpos : 1 ≤ p.remaining.toNat)
    (hfree : p.payload.length < 65535) (b : Byte) :
    feedPure p b = .ok ({ p.takePayload b with xorAcc := xorFold p.xorAcc b }, .noFrame) := by
  obtain ⟨hr, hcap⟩ := payload_free hpos hfree
  simp only [feedPure, hs, hr, hcap, if_false]

/-- R169, with nothing in the way of the byte. -/
theorem feedPure_takePayloadV2 {p : ParserState} (hs : p.stateId = some .s13) (hpos : 1 ≤ p.remaining.toNat)
    (hfree : p.payload.length < 65535) (b : Byte) :
    feedPure p b = .ok ({ p.takePayload b with crcAcc := crcFold p.crcAcc b }, .noFrame) := by
  obtain ⟨hr, hcap⟩ := payload_free hpos hfree
  simp only [feedPure, hs, hr, hcap, if_false]

/-! ### The header: S0 to S3 -/

theorem feedsWell_s0 (b : Byte) : FeedsWell ParserState.init b := by
  by_cases hb : b = syncByte
  · exact feedsWell_of_noFrame (q := { ParserState.init with phase := .versionTag }) (by simp [feedPure, hb]) rfl
  · exact feedsWell_of_noFrame (q := ParserState.init) (by simp [feedPure, hb]) rfl

theorem feedsWell_s1 (b : Byte) : FeedsWell { ParserState.init with phase := .versionTag } b := by
  have hs : ({ ParserState.init with phase := .versionTag } : ParserState).stateId = some .s1 := rfl
  by_cases h1 : b = tagV1
  · exact feedsWell_of_noFrame (q := { ParserState.init with phase := .direction, rev := .v1 })
      (by simp [feedPure, hs, h1]) rfl
  · by_cases h2 : b = tagV2
    · exact feedsWell_of_noFrame (q := { ParserState.init with phase := .direction, rev := .v2 })
        (by simp [feedPure, hs, h2, tagV2_ne_tagV1]) rfl
    · exact feedsWell_of_result (r := .err .invalidHeader) (by simp [feedPure, hs, h1, h2]) trivial

theorem feedsWell_s2 (b : Byte) : FeedsWell { ParserState.init with phase := .direction, rev := .v1 } b := by
  have hs : ({ ParserState.init with phase := .direction, rev := .v1 } : ParserState).stateId = some .s2 := rfl
  cases hb : dirOf b with
  | some d =>
    exact feedsWell_of_noFrame (q := { ParserState.init with phase := .length, rev := .v1, dir := d })
      (by simp [feedPure, hs, hb]) rfl
  | none => exact feedsWell_of_result (r := .err .invalidDirection) (by simp [feedPure, hs, hb]) trivial

theorem feedsWell_s3 (b : Byte) : FeedsWell { ParserState.init with phase := .direction, rev := .v2 } b := by
  have hs : ({ ParserState.init with phase := .direction, rev := .v2 } : ParserState).stateId = some .s3 := rfl
  cases hb : dirOf b with
  | some d =>
    exact feedsWell_of_noFrame (q := { ParserState.init with phase := .flag, rev := .v2, dir := d })
      (by simp [feedPure, hs, hb]) rfl
  | none => exact feedsWell_of_result (r := .err .invalidDirection) (by simp [feedPure, hs, hb]) trivial

/-! ### The V1 body: S4 to S7 -/

theorem one_le_toNat {r : Half} (hr : r ≠ 0) : 1 ≤ r.toNat :=
  Nat.one_le_iff_ne_zero.2 fun h => hr (BitVec.eq_of_toNat_eq h)

/-- R32's rows of S6 and S7 at once: `remaining` alone tells them apart. -/
theorem parserInv_payloadV1 {dir : Direction} {L C : Byte} {rem : Half} {pay : List Byte}
    (hlen : pay.length + rem.toNat = L.toNat) :
    ParserInv { ParserState.init with
      phase := payloadOrChecksum rem, rev := .v1, dir := dir, cmd := zext16 C, remaining := rem, payload := pay,
      xorAcc := xorSum (L :: C :: pay) } := by
  by_cases hr : rem = 0
  · subst hr
    exact ⟨L, C, hlen, rfl⟩
  · rw [payloadOrChecksum, if_neg hr]
    exact ⟨L, C, one_le_toNat hr, hlen, rfl⟩

theorem feedsWell_s4 (dir : Direction) (b : Byte) :
    FeedsWell { ParserState.init with phase := .length, rev := .v1, dir := dir } b :=
  feedsWell_of_noFrame rfl ⟨b, rfl⟩

theorem feedsWell_s5 (dir : Direction) (L b : Byte) :
    FeedsWell { ParserState.init with
      phase := .command, rev := .v1, dir := dir, remaining := zext16 L, xorAcc := xorSum [L] } b :=
  feedsWell_of_noFrame rfl (parserInv_payloadV1 (L := L) (C := b) (pay := []) (by simp [zext16_toNat]))

theorem feedsWell_s6 {dir : Direction} {L C : Byte} {rem : Half} {pay : List Byte} (hpos : 1 ≤ rem.toNat)
    (hlen : pay.length + rem.toNat = L.toNat) (b : Byte) :
    FeedsWell { ParserState.init with
      phase := .payload, rev := .v1, dir := dir, cmd := zext16 C, remaining := rem, payload := pay,
      xorAcc := xorSum (L :: C :: pay) } b := by
  have hL := L.isLt
  have hfree : pay.length < 65535 := by omega
  have hnext := parserInv_payloadV1 (dir := dir) (L := L) (C := C) (rem := rem - 1) (pay := pay ++ [b])
    (by rw [half_pred hpos, List.length_append, List.length_singleton]; omega)
  rw [← List.cons_append, ← List.cons_append, xorSum_snoc] at hnext
  exact feedsWell_of_noFrame (feedPure_takePayloadV1 rfl hpos hfree b) hnext

theorem feedsWell_s7 {p : ParserState} (hs : p.stateId = some .s7) {L : Byte} (hlen : p.payload.length = L.toNat)
    (b : Byte) : FeedsWell p b := by
  have hL := L.isLt
  exact feedsWell_of_result (feedPure_of_s7 hs b)
    (resultSound_checksumResult (by show p.payload.length ≤ 65535; omega) _ _)

/-! ### The V2 body: S8 to S14 -/

/-- R32's rows of S13 and S14 at once: `remaining` alone tells them apart. -/
theorem parserInv_payloadV2 {dir : Direction} {F : Byte} {c L rem : Half} {pay : List Byte}
    (hlen : pay.length + rem.toNat = L.toNat) :
    ParserInv { ParserState.init with
      phase := payloadOrChecksum rem, rev := .v2, dir := dir, cmd := c, remaining := rem, payload := pay,
      crcAcc := crcBulk crcInit (F :: lowByte c :: highByte c :: lowByte L :: highByte L :: pay) } := by
  by_cases hr : rem = 0
  · subst hr
    exact ⟨F, L, hlen, rfl⟩
  · rw [payloadOrChecksum, if_neg hr]
    exact ⟨F, L, one_le_toNat hr, hlen, rfl⟩

theorem feedsWell_s8 (dir : Direction) (b : Byte) :
    FeedsWell { ParserState.init with phase := .flag, rev := .v2, dir := dir } b :=
  feedsWell_of_noFrame rfl ⟨b, rfl⟩

theorem feedsWell_s9 (dir : Direction) (F b : Byte) :
    FeedsWell { ParserState.init with phase := .command, rev := .v2, dir := dir, crcAcc := crcBulk crcInit [F] } b :=
  feedsWell_of_noFrame rfl ⟨F, b, rfl⟩

theorem feedsWell_s10 (dir : Direction) (F lo b : Byte) :
    FeedsWell { ParserState.init with
      phase := .command, rev := .v2, idx := true, dir := dir, cmd := zext16 lo, crcAcc := crcBulk crcInit [F, lo] } b := by
  refine feedsWell_of_noFrame rfl ⟨F, ?_⟩
  simp only [lowByte_joinBytes, highByte_joinBytes, lowByte_zext16]; rfl

theorem feedsWell_s11 (dir : Direction) (F : Byte) (c : Half) (b : Byte) :
    FeedsWell { ParserState.init with
      phase := .length, rev := .v2, dir := dir, cmd := c, crcAcc := crcBulk crcInit [F, lowByte c, highByte c] } b :=
  feedsWell_of_noFrame rfl ⟨F, b, rfl⟩

theorem feedsWell_s12 (dir : Direction) (F lo : Byte) (c : Half) (b : Byte) :
    FeedsWell { ParserState.init with
      phase := .length, rev := .v2, idx := true, dir := dir, cmd := c, remaining := zext16 lo,
      crcAcc := crcBulk crcInit [F, lowByte c, highByte c, lo] } b := by
  have hnext := parserInv_payloadV2 (dir := dir) (F := F) (c := c) (L := joinBytes b lo) (rem := joinBytes b lo) (pay := [])
    (Nat.zero_add _)
  rw [lowByte_joinBytes, highByte_joinBytes] at hnext
  refine feedsWell_of_noFrame rfl ?_
  simp only [ParserState.announced, lowByte_zext16]
  exact hnext

theorem feedsWell_s13 {dir : Direction} {F : Byte} {c L rem : Half} {pay : List Byte} (hpos : 1 ≤ rem.toNat)
    (hlen : pay.length + rem.toNat = L.toNat) (b : Byte) :
    FeedsWell { ParserState.init with
      phase := .payload, rev := .v2, dir := dir, cmd := c, remaining := rem, payload := pay,
      crcAcc := crcBulk crcInit (F :: lowByte c :: highByte c :: lowByte L :: highByte L :: pay) } b := by
  have hL := L.isLt
  have hfree : pay.length < 65535 := by omega
  have hnext := parserInv_payloadV2 (dir := dir) (F := F) (c := c) (L := L) (rem := rem - 1) (pay := pay ++ [b])
    (by rw [half_pred hpos, List.length_append, List.length_singleton]; omega)
  simp only [← List.cons_append, crcBulk_snoc] at hnext
  exact feedsWell_of_noFrame (feedPure_takePayloadV2 rfl hpos hfree b) hnext

theorem feedsWell_s14 {p : ParserState} (hs : p.stateId = some .s14) {L : Half} (hlen : p.payload.length = L.toNat)
    (b : Byte) : FeedsWell p b := by
  have hL := L.isLt
  exact feedsWell_of_result (feedPure_of_s14 hs b)
    (resultSound_checksumResult (by show p.payload.length ≤ 65535; omega) _ _)

/-! ### Every control state -/

/-- R32, R150: from a ParserState that meets the invariant every byte feeds well; one case for each row of R32. -/
theorem ParserInv.feedsWell {p : ParserState} (hp : ParserInv p) (b : Byte) : FeedsWell p b := by
  unfold ParserInv at hp
  cases hs : p.stateId with
  | none => rw [hs] at hp; exact hp.elim
  | some st =>
    rw [hs] at hp
    cases st
    case s0 => exact hp ▸ feedsWell_s0 b
    case s1 => exact hp ▸ feedsWell_s1 b
    case s2 => exact hp ▸ feedsWell_s2 b
    case s3 => exact hp ▸ feedsWell_s3 b
    case s4 => rw [hp]; exact feedsWell_s4 _ b
    case s5 => obtain ⟨L, hp⟩ := hp; rw [hp]; exact feedsWell_s5 _ L b
    case s6 => obtain ⟨L, C, hpos, hlen, hp⟩ := hp; rw [hp]; exact feedsWell_s6 hpos hlen b
    case s7 => obtain ⟨L, C, hlen, -⟩ := hp; exact feedsWell_s7 hs hlen b
    case s8 => rw [hp]; exact feedsWell_s8 _ b
    case s9 => obtain ⟨F, hp⟩ := hp; rw [hp]; exact feedsWell_s9 _ F b
    case s10 => obtain ⟨F, lo, hp⟩ := hp; rw [hp]; exact feedsWell_s10 _ F lo b
    case s11 => obtain ⟨F, hp⟩ := hp; rw [hp]; exact feedsWell_s11 _ F _ b
    case s12 => obtain ⟨F, lo, hp⟩ := hp; rw [hp]; exact feedsWell_s12 _ F lo _ b
    case s13 => obtain ⟨F, L, hpos, hlen, hp⟩ := hp; rw [hp]; exact feedsWell_s13 hpos hlen b
    case s14 => obtain ⟨F, L, hlen, -⟩ := hp; exact feedsWell_s14 hs hlen b

/-- Settles O47: the one result of a byte, as a step of the machine. -/
theorem everyFeedHasOneResultAndResultsEndInInit : Obligations.EveryFeedHasOneResultAndResultsEndInInit := by
  intro b s hs
  obtain ⟨q, r, hf, hq, hinit, -⟩ := hs.feedsWell b
  exact ⟨q, r, feedsTo_of_feedPure hf, hq, hinit⟩

/-! ### Runs of bytes -/

/-- R32, R150, R203: any bytes are accepted from a ParserState that meets the invariant, which then still holds. -/
theorem ParserInv.exists_feedsPure {p : ParserState} (hp : ParserInv p) (w : List Byte) :
    ∃ q rs, feedsPure p w = .ok (q, rs) ∧ ParserInv q ∧ ∀ r ∈ rs, ResultSound (.feed r) := by
  induction w generalizing p with
  | nil => exact ⟨p, [], rfl, hp, by simp⟩
  | cons b w ih =>
    obtain ⟨p', r, hb, hp', -, hr⟩ := hp.feedsWell b
    obtain ⟨q, rs, hw, hq, hrs⟩ := ih hp'
    exact ⟨q, r :: rs, feedsPure_cons hb hw, hq, List.forall_mem_cons.2 ⟨hr, hrs⟩⟩

theorem ParserInv.exists_bytesTo {s : State} (hs : ParserInv s.curParser) (w : List Byte) :
    ∃ q rs, BytesTo w s q rs ∧ rs.length = w.length ∧ ParserInv q := by
  obtain ⟨q, rs, hw, hq, -⟩ := hs.exists_feedsPure w
  exact ⟨q, rs, bytesTo_iff.2 hw, length_of_feedsPure hw, hq⟩

theorem extractLsb'_low (h : Half) : h.extractLsb' 0 8 = lowByte h := by
  apply BitVec.eq_of_toNat_eq
  simp [lowByte]

theorem extractLsb'_high (h : Half) : h.extractLsb' 8 8 = highByte h := by
  apply BitVec.eq_of_toNat_eq
  simp [highByte]

/-- Settles O38: a frame row is its bytes, and any bytes run. -/
theorem frameRowsRunFromEveryReachableParser : Obligations.FrameRowsRunFromEveryReachableParser := by
  intro d f k p s hs
  constructor
  · intro c _
    obtain ⟨q, rs, hw, hlen, hq⟩ := hs.exists_bytesTo (frameBytesV1 d c p k)
    exact ⟨q, rs, runsTo_frameV1.2 hw, by rw [hlen, frameBytesV1_length], hq, hw⟩
  · intro c _
    obtain ⟨q, rs, hw, hlen, hq⟩ := hs.exists_bytesTo (frameBytesV2 d f c p k)
    refine ⟨q, rs, runsTo_frameV2.2 hw, by rw [hlen, frameBytesV2_length], hq, ?_⟩
    simp only [extractLsb'_low, extractLsb'_high]
    exact hw

end Sys2Proof.Machine

/-! PROOFS. What an instruction can do to the machine: one of seven actions, chosen by the registers it is addressed to
(10_state.md section 7, R222). -/

namespace Sys2Proof.Machine

/-- What running an instruction comes to. -/
inductive Action where
  | refuse (r : Refusal)
  /-- `P.FEEDS` (R92): the byte rows, the frame rows and `P.FEED`. -/
  | feed (w : List Byte)
  | resetParser
  | setXor (v : Byte)
  | setCrc (v : Byte)
  | result (r : Result)
  /-- A serialize call of the exact length (R133). -/
  | store (bs : List Byte)

def Action.run : Action → State → Host.Outcome State Fault Refusal
  | .refuse r, _ => .refused r
  | .feed w, s => feedAll w s
  | .resetParser, s => .next (s.setParser s.cur ParserState.init)
  | .setXor v, s => .next (s.setXorReg s.cur v)
  | .setCrc v, s => .next (s.setCrcReg s.cur v)
  | .result r, s => .next (s.deliver r)
  | .store bs, s => .next (({ s with dst := s.dst.writeAll 0 bs } : State).deliver (.ser (.ok bs)))

/-- What an action itself adds to the results is sound; those of fed bytes depend on the parser. -/
def Action.Sound : Action → Prop
  | .refuse _ => True
  | .feed _ => True
  | .resetParser => True
  | .setXor _ => True
  | .setCrc _ => True
  | .result r => ResultSound r
  | .store bs => ResultSound (.ser (.ok bs))

/-- The registers of one number: its parser and its two stand-alone accumulators. -/
structure Regs where
  parser : ParserState
  xorReg : Byte
  crcReg : Byte

def State.regs (s : State) (k : Nat) : Regs := ⟨s.parser k, s.xorReg k, s.crcReg k⟩

theorem feedAll_singleton (b : Byte) (s : State) : feedAll [b] s = exec (.pFeed b) s := by
  show feedAll [b] s = execPFeed b s
  rw [feedAll]
  cases execPFeed b s <;> rfl

theorem exec_of_encode_burst {i : Instr} {w : List Byte} (h : encode i = .burst w) (s : State) :
    exec i s = feedAll w s := by
  obtain ⟨d, c, p, k, rfl, rfl⟩ | ⟨d, f, c, p, k, rfl, rfl⟩ := frame_of_encode_burst h <;> rfl

/-- R81: for given registers a byte row either feeds its byte or is refused. -/
theorem exec_byteRow_eq_action {i : Instr} {b : Byte} (henc : encode i = .byte b) (g : Regs) :
    ∃ a : Action, a.Sound ∧ ∀ s : State, s.regs s.cur = g → exec i s = a.run s := by
  by_cases h : ∃ c, g.parser.context = some c ∧ i.fits = true ∧ i.encodable c = true
  · obtain ⟨c, hc, hfits, hstands⟩ := h
    refine ⟨.feed [b], trivial, ?_⟩
    rintro s rfl
    exact (exec_pFeed_of_decodeByte hc (decodeByte_of_encode henc hfits hstands)).symm.trans (feedAll_singleton b s).symm
  · refine ⟨.refuse .rowNotSelected, trivial, ?_⟩
    rintro s rfl
    exact exec_byteRow_refused henc fun c hc hfits hstands => h ⟨c, hc, hfits, hstands⟩

/-- R133: a serialize call in range stores, or delivers `SizeMismatch`. -/
theorem serialize_eq_action {size n : Nat} {bs : List Byte} (hbs : ResultSound (.ser (.ok bs))) :
    ∃ a : Action, a.Sound ∧ ∀ s : State, .next (s.serialize size n bs) = a.run s := by
  by_cases hn : n = size
  · exact ⟨.store bs, hbs, fun s => by rw [hn, serialize_eq]; rfl⟩
  · exact ⟨.result (.ser .sizeMismatch), trivial, fun s => by rw [serialize_ne s hn]; rfl⟩

theorem exec_serV1_eq_action (f : Frame) (n : Nat) :
    ∃ a : Action, a.Sound ∧ ∀ s : State, exec (.serV1 f n) s = a.run s := by
  by_cases hp : f.payload.length ≤ 255
  · obtain ⟨a, ha, hrun⟩ := serialize_eq_action (size := 6 + f.payload.length) (n := n) (.inl (serBytesV1_denotes hp).1)
    exact ⟨a, ha, fun s => (exec_serV1 hp n s).trans (hrun s)⟩
  · exact ⟨.refuse .payloadOverV1Limit, trivial, execSerV1_over (not_le.1 hp) n⟩

theorem exec_serV2_eq_action (f : Frame) (n : Nat) :
    ∃ a : Action, a.Sound ∧ ∀ s : State, exec (.serV2 f n) s = a.run s := by
  by_cases hp : f.payload.length ≤ 65535
  · obtain ⟨a, ha, hrun⟩ := serialize_eq_action (size := 9 + f.payload.length) (n := n) (.inr (serBytesV2_denotes hp).1)
    exact ⟨a, ha, fun s => (exec_serV2 hp n s).trans (hrun s)⟩
  · exact ⟨.refuse .notAFrame, trivial, execSerV2_over (not_le.1 hp) n⟩

/-- R131: the size of a Frame is in the range of R7. -/
theorem resultSound_size {f : Frame} {rev : Revision} (h : (Instr.frameSize f rev).fits = true) :
    ResultSound (.size (wireSize f rev)) := by
  have hp : f.payload.length ≤ 65535 := of_decide_eq_true h
  cases rev <;> simp only [ResultSound, wireSize, Config.overheadV1, Config.overheadV2] <;> omega

/-- R10: each of the thirteen operations. -/
theorem exec_operation_eq_action {i : Instr} (hop : i.isOperation = true) (g : Regs) :
    ∃ a : Action, (i.fits = true → a.Sound) ∧ ∀ s : State, s.regs s.cur = g → exec i s = a.run s := by
  cases i
  case xorReset => exact ⟨.setXor xorInit, fun _ => trivial, fun s _ => rfl⟩
  case xorUpdate b => exact ⟨.setXor (xorFold g.xorReg b), fun _ => trivial, by rintro s rfl; rfl⟩
  case xorUpdateBulk bs => exact ⟨.setXor (xorBulk g.xorReg bs), fun _ => trivial, by rintro s rfl; rfl⟩
  case xorValue => exact ⟨.result (.xorValue g.xorReg), fun _ => trivial, by rintro s rfl; rfl⟩
  case crc8Reset => exact ⟨.setCrc crcInit, fun _ => trivial, fun s _ => rfl⟩
  case crc8Update b => exact ⟨.setCrc (crcFold g.crcReg b), fun _ => trivial, by rintro s rfl; rfl⟩
  case crc8UpdateBulk bs => exact ⟨.setCrc (crcBulk g.crcReg bs), fun _ => trivial, by rintro s rfl; rfl⟩
  case crc8Finalize => exact ⟨.result (.crcValue (crcFinal g.crcReg)), fun _ => trivial, by rintro s rfl; rfl⟩
  case frameSize f rev => exact ⟨.result (.size (wireSize f rev)), resultSound_size, fun s _ => rfl⟩
  case serV1 f n =>
    obtain ⟨a, ha, hrun⟩ := exec_serV1_eq_action f n
    exact ⟨a, fun _ => ha, fun s _ => hrun s⟩
  case serV2 f n =>
    obtain ⟨a, ha, hrun⟩ := exec_serV2_eq_action f n
    exact ⟨a, fun _ => ha, fun s _ => hrun s⟩
  case pReset => exact ⟨.resetParser, fun _ => trivial, fun s _ => rfl⟩
  case pFeed b => exact ⟨.feed [b], fun _ => trivial, fun s _ => (feedAll_singleton b s).symm⟩
  all_goals cases hop

/-- R46: everything an instruction can do is an action that the registers it is addressed to determine. -/
theorem exec_eq_action (i : Instr) (g : Regs) :
    ∃ a : Action, (i.fits = true → a.Sound) ∧ ∀ s : State, s.regs s.cur = g → exec i s = a.run s := by
  cases henc : encode i with
  | byte b =>
    obtain ⟨a, ha, hrun⟩ := exec_byteRow_eq_action henc g
    exact ⟨a, fun _ => ha, hrun⟩
  | burst w => exact ⟨.feed w, fun _ => trivial, fun s _ => exec_of_encode_burst henc s⟩
  | op j => exact exec_operation_eq_action (isOperation_of_encode_op henc).2 g

/-! ### What an action changes, and what it depends on -/

/-- `t` is `s` after an operation that leaves the addressed registers at `g` and delivers `rs`; the destination memory
apart, nothing
else has changed. -/
structure LocalStep (s t : State) (g : Regs) (rs : List Result) : Prop where
  regs_cur   : t.regs s.cur = g
  regs_other : ∀ k, k ≠ s.cur → t.regs k = s.regs k
  delivered  : t.delivered = s.delivered ++ rs.map fun r => ⟨s.cur, r⟩
  trace      : TraceSame s t

theorem localStep_of_onlyParser {s t : State} {p : ParserState} {rs : List FeedResult} (hp : t.parser s.cur = p)
    (hd : t.delivered = s.delivered ++ feedDeliveries s.cur rs) (ho : OnlyParser s t) :
    LocalStep s t ⟨p, s.xorReg s.cur, s.crcReg s.cur⟩ (rs.map .feed) := by
  obtain ⟨hother, hx, hc, -, htrace⟩ := ho
  refine ⟨?_, fun k hk => ?_, ?_, htrace⟩
  · rw [State.regs, hp, hx, hc]
  · rw [State.regs, State.regs, hother k hk, hx, hc]
  · rw [hd, List.map_map]; rfl

theorem localStep_setXorReg (s : State) (v : Byte) :
    LocalStep s (s.setXorReg s.cur v) ⟨s.parser s.cur, v, s.crcReg s.cur⟩ [] := by
  refine ⟨?_, fun k hk => ?_, by simp, rfl, rfl⟩
  · simp [State.regs]
  · simp [State.regs, setXorReg_xorReg_other s hk]

theorem localStep_setCrcReg (s : State) (v : Byte) :
    LocalStep s (s.setCrcReg s.cur v) ⟨s.parser s.cur, s.xorReg s.cur, v⟩ [] := by
  refine ⟨?_, fun k hk => ?_, by simp, rfl, rfl⟩
  · simp [State.regs]
  · simp [State.regs, setCrcReg_crcReg_other s hk]

theorem localStep_resetParser (s : State) :
    LocalStep s (s.setParser s.cur ParserState.init) ⟨ParserState.init, s.xorReg s.cur, s.crcReg s.cur⟩ [] := by
  refine ⟨?_, fun k hk => ?_, by simp, rfl, rfl⟩
  · simp [State.regs]
  · simp [State.regs, setParser_parser_other s hk]

theorem localStep_deliver (s : State) (r : Result) : LocalStep s (s.deliver r) (s.regs s.cur) [r] :=
  ⟨rfl, fun _ _ => rfl, rfl, rfl, rfl⟩

theorem localStep_store (s : State) (bs : List Byte) :
    LocalStep s (({ s with dst := s.dst.writeAll 0 bs } : State).deliver (.ser (.ok bs))) (s.regs s.cur) [.ser (.ok bs)] :=
  ⟨rfl, fun _ _ => rfl, rfl, rfl, rfl⟩

/-- What an action does with given registers, whatever the rest of the state: it is refused, or it leaves the same registers and
delivers the same results. -/
theorem Action.run_local (a : Action) (g : Regs) :
    (∃ r, ∀ s : State, s.regs s.cur = g → a.run s = .refused r) ∨
      ∃ g' rs, ∀ s : State, s.regs s.cur = g → ∃ t, a.run s = .next t ∧ LocalStep s t g' rs := by
  cases a with
  | refuse r => exact .inl ⟨r, fun s _ => rfl⟩
  | feed w =>
    cases hw : feedsPure g.parser w with
    | error e =>
      refine .inl ⟨e, ?_⟩
      rintro s rfl
      exact feedAll_of_feedsPure_error hw
    | ok x =>
      refine .inr ⟨⟨x.1, g.xorReg, g.crcReg⟩, x.2.map .feed, ?_⟩
      rintro s rfl
      obtain ⟨t, ht, hp, hd, ho⟩ := bytesTo_of_feedsPure hw
      exact ⟨t, ht, localStep_of_onlyParser hp hd ho⟩
  | resetParser =>
    exact .inr ⟨{ g with parser := ParserState.init }, [], by rintro s rfl; exact ⟨_, rfl, localStep_resetParser s⟩⟩
  | setXor v => exact .inr ⟨{ g with xorReg := v }, [], by rintro s rfl; exact ⟨_, rfl, localStep_setXorReg s v⟩⟩
  | setCrc v => exact .inr ⟨{ g with crcReg := v }, [], by rintro s rfl; exact ⟨_, rfl, localStep_setCrcReg s v⟩⟩
  | result r => exact .inr ⟨g, [r], by rintro s rfl; exact ⟨_, rfl, localStep_deliver s r⟩⟩
  | store bs => exact .inr ⟨g, [.ser (.ok bs)], by rintro s rfl; exact ⟨_, rfl, localStep_store s bs⟩⟩

/-- R222: an instruction that runs also runs in every state with the same addressed registers, to the same registers and
results. -/
theorem exec_local {i : Instr} {s t : State} (h : exec i s = .next t) :
    ∃ g rs, LocalStep s t g rs ∧
      ∀ s' : State, s'.regs s'.cur = s.regs s.cur → ∃ t', exec i s' = .next t' ∧ LocalStep s' t' g rs := by
  obtain ⟨a, -, hexec⟩ := exec_eq_action i (s.regs s.cur)
  rcases a.run_local (s.regs s.cur) with ⟨r, hrun⟩ | ⟨g, rs, hrun⟩
  · rw [hexec s rfl, hrun s rfl] at h
    cases h
  · have hall : ∀ s' : State, s'.regs s'.cur = s.regs s.cur → ∃ t', exec i s' = .next t' ∧ LocalStep s' t' g rs := by
      intro s' hs'
      rw [hexec s' hs']
      exact hrun s' hs'
    obtain ⟨t', ht', hstep⟩ := hall s rfl
    obtain rfl : t = t' := by rw [h] at ht'; cases ht'; rfl
    exact ⟨g, rs, hstep, hall⟩

theorem resultsOf_of_delivered {s t : State} {k : Nat} {rs : List Result}
    (h : t.delivered = s.delivered ++ rs.map fun r => ⟨k, r⟩) (j : Nat) :
    t.resultsOf j = s.resultsOf j ++ if j = k then rs else [] := by
  rw [State.resultsOf, State.resultsOf, h, List.filter_append, List.map_append]
  split_ifs with hj
  · subst hj
    simp [List.filter_map, Function.comp_def]
  · simp [List.filter_map, Function.comp_def, Ne.symm hj]

/-- Settles O49: a step of the addressed registers leaves all others, and its results carry their own number. -/
theorem instructionsTouchOnlyTheirInstance : Obligations.InstructionsTouchOnlyTheirInstance := by
  intro i s t h
  obtain ⟨g, rs, hstep, -⟩ := exec_local h
  refine ⟨fun k hk => congrArg Regs.parser (hstep.regs_other k hk), fun k hk => congrArg Regs.xorReg (hstep.regs_other k hk),
    fun k hk => congrArg Regs.crcReg (hstep.regs_other k hk), fun k hk => ?_, ⟨_, hstep.delivered⟩, hstep.trace⟩
  rw [resultsOf_of_delivered hstep.delivered, if_neg hk, List.append_nil]

/-- Settles O50: each of the two finds its registers as it would find them first, and leaves the other's alone. -/
theorem operationsOnDifferentInstancesCommute : Obligations.OperationsOnDifferentInstancesCommute := by
  intro a b k l s t t' hkl ha hb
  obtain ⟨ga, ra, hst, halla⟩ := exec_local ha
  obtain ⟨gb, rb, htt', hallb⟩ := exec_local hb
  obtain ⟨u, hu, hsu⟩ := hallb { s with cur := l } (hst.regs_other l hkl.symm).symm
  obtain ⟨u', hu', huu'⟩ := halla { u with cur := k } (hsu.regs_other k hkl)
  have hregs : ∀ j, u'.regs j = t'.regs j := by
    intro j
    by_cases hk : j = k
    · subst hk
      calc u'.regs j = ga := huu'.regs_cur
        _ = t.regs j := hst.regs_cur.symm
        _ = t'.regs j := (htt'.regs_other j hkl).symm
    · by_cases hl : j = l
      · subst hl
        calc u'.regs j = u.regs j := huu'.regs_other j hk
          _ = gb := hsu.regs_cur
          _ = t'.regs j := htt'.regs_cur.symm
      · calc u'.regs j = u.regs j := huu'.regs_other j hk
          _ = s.regs j := hsu.regs_other j hl
          _ = t.regs j := (hst.regs_other j hk).symm
          _ = t'.regs j := (htt'.regs_other j hl).symm
  have hresults : ∀ j, u'.resultsOf j = t'.resultsOf j := by
    intro j
    calc u'.resultsOf j = u.resultsOf j ++ (if j = k then ra else []) := resultsOf_of_delivered huu'.delivered j
      _ = s.resultsOf j ++ (if j = l then rb else []) ++ (if j = k then ra else []) := by
        rw [resultsOf_of_delivered hsu.delivered j]; rfl
      _ = s.resultsOf j ++ (if j = k then ra else []) ++ (if j = l then rb else []) := by
        by_cases hk : j = k <;> by_cases hl : j = l <;> simp_all
      _ = t.resultsOf j ++ (if j = l then rb else []) := by rw [resultsOf_of_delivered hst.delivered j]; rfl
      _ = t'.resultsOf j := (resultsOf_of_delivered htt'.delivered j).symm
  exact ⟨u, u', hu, hu', fun j => congrArg Regs.parser (hregs j), fun j => congrArg Regs.xorReg (hregs j),
    fun j => congrArg Regs.crcReg (hregs j), hresults⟩

end Sys2Proof.Machine

/-! PROOFS. The step, by what the first line of the trace decodes to (30_encoding.md section 6). -/

namespace Sys2Proof.Machine

/-! ### One equation for each way a step can go -/

theorem step_of_idle {s : State} (h : s.pending = []) : step s = .next s := by simp [step, fetch, h]

theorem step_of_decode_ok {s : State} {k : Nat} {q : Request} {later : List Line} {i : Instr} {rest : List Byte}
    (h : s.pending = ⟨k, q⟩ :: later) (hd : decode (s.parser k).context q = .ok (i, rest)) :
    step s = exec i (s.take k (restOfBurst k rest later)) := by simp [step, fetch, h, hd]

theorem step_of_noFrameRow {s : State} {k : Nat} {bs : List Byte} {later : List Line}
    (h : s.pending = ⟨k, .burst bs⟩ :: later) (hd : decodeFrame bs = none) :
    step s = .next (s.take k (feedLines k bs ++ later)) := by simp [step, fetch, h, decode, hd, onReject]

theorem step_of_unreachable {s : State} {k : Nat} {b : Byte} {later : List Line}
    (h : s.pending = ⟨k, .byte b⟩ :: later) (hc : (s.parser k).context = none) :
    step s = .refused .unreachableControl := by simp [step, fetch, h, decode, hc, onReject]

/-- Settles O51: by the answer of the decoder and the rest it leaves. -/
theorem stepRunsTheDecodedInstruction : Obligations.StepRunsTheDecodedInstruction := by
  refine ⟨fun s k q later i h => step_of_decode_ok (s := { s with pending := ⟨k, q⟩ :: later }) rfl h,
    fun s k q later i b bs h => step_of_decode_ok (s := { s with pending := ⟨k, q⟩ :: later }) rfl h,
    fun s k bs later h => ?_, fun s h => step_of_idle h⟩
  cases hf : decodeFrame bs with
  | none => exact step_of_noFrameRow rfl hf
  | some r => simp [decode, hf] at h

theorem decode_byte {c : Context} {b : Byte} {i : Instr} (h : decodeByte c b = some i) :
    decode (some c) (.byte b) = .ok (i, []) := by simp [decode, h]

theorem decode_burst {c : Option Context} {bs rest : List Byte} {i : Instr} (h : decodeFrame bs = some (i, rest)) :
    decode c (.burst bs) = .ok (i, rest) := by simp [decode, h]

theorem decode_op {c : Option Context} {i : Instr} (hop : i.isOperation = true) (hfits : i.fits = true) :
    decode c (.op i) = .ok (i, []) := by simp [decode, hop, hfits]

/-- R34, R72, R73, R81: what a request decodes to has operands that fit. -/
theorem fits_of_decode {c : Option Context} {q : Request} {i : Instr} {rest : List Byte}
    (h : decode c q = .ok (i, rest)) : i.fits = true := by
  cases q with
  | byte b =>
    cases c with
    | none => simp [decode] at h
    | some c =>
      rw [decode_byte (decodeByte_eq c b)] at h
      cases h
      exact (encode_fits_encodable_of_decodeByte (decodeByte_eq c b)).2.1
  | burst bs =>
    cases hf : decodeFrame bs with
    | none => simp [decode, hf] at h
    | some r =>
      rw [decode_burst hf] at h
      cases h
      obtain ⟨w, -, -, hfits⟩ := decodeFrame_sound hf
      exact hfits
  | op j =>
    simp only [decode] at h
    split_ifs at h with hop hfits
    cases h
    exact hfits

theorem onReject_cases (r : Reject) (s : State) (k : Nat) (q : Request) (later : List Line) :
    (∃ e, onReject r s k q later = .reject e) ∨ ∃ lines, onReject r s k q later = .expand (s.take k lines) := by
  unfold onReject
  split
  · exact .inr ⟨_, rfl⟩
  all_goals exact .inl ⟨_, rfl⟩

/-- A request that is no instruction is refused, or is a burst that is taken as its bytes. -/
theorem step_of_decode_error {s : State} {k : Nat} {q : Request} {later : List Line} {r : Reject}
    (h : s.pending = ⟨k, q⟩ :: later) (hd : decode (s.parser k).context q = .error r) :
    (∃ e, step s = .refused e) ∨ ∃ lines, step s = .next (s.take k lines) := by
  have hfetch : fetch s = onReject r s k q later := by simp only [fetch, h, hd]
  rcases onReject_cases r s k q later with ⟨e, he⟩ | ⟨lines, hl⟩
  · exact .inl ⟨e, by simp only [step, hfetch, he]⟩
  · exact .inr ⟨lines, by simp only [step, hfetch, hl]⟩

/-- Everything a step that answers a next state can have done: nothing, taken a line, or taken a line and run an instruction. -/
theorem step_next_cases {s t : State} (h : step s = .next t) :
    t = s ∨ (∃ k lines, t = s.take k lines) ∨
      ∃ i k lines, i.fits = true ∧ exec i (s.take k lines) = .next t := by
  cases hp : s.pending with
  | nil =>
    rw [step_of_idle hp] at h
    cases h
    exact .inl rfl
  | cons l later =>
    obtain ⟨k, q⟩ := l
    cases hd : decode (s.parser k).context q with
    | error r =>
      rcases step_of_decode_error hp hd with ⟨e, he⟩ | ⟨lines, hl⟩
      · rw [he] at h
        cases h
      · rw [hl] at h
        cases h
        exact .inr (.inl ⟨k, lines, rfl⟩)
    | ok x =>
      obtain ⟨i, rest⟩ := x
      rw [step_of_decode_ok hp hd] at h
      exact .inr (.inr ⟨i, k, _, fits_of_decode hd, h⟩)

/-! ### Steps over single bytes -/

/-- R81, R175: a line with a byte is `P.FEED` of that byte, refused or not. -/
theorem step_of_byte {s : State} {k : Nat} {b : Byte} {later : List Line} (h : s.pending = ⟨k, .byte b⟩ :: later) :
    step s = execPFeed b (s.take k later) := by
  cases hc : (s.parser k).context with
  | none =>
    have hs : (s.take k later).curParser.stateId = none := Option.map_eq_none_iff.1 hc
    rw [step_of_unreachable h hc, execPFeed, hs]
  | some c =>
    have hd := decodeByte_eq c b
    rw [step_of_decode_ok h (hc ▸ decode_byte hd)]
    exact (exec_pFeed_of_decodeByte (s := s.take k later) hc hd).symm

/-- `P.FEED` does not look at the trace. -/
theorem execPFeed_pending_next {b : Byte} {s t : State} (h : execPFeed b s = .next t) (lines : List Line) :
    execPFeed b { s with pending := lines } = .next { t with pending := lines } := by
  rw [execPFeed_eq] at h ⊢
  show State.feedOutcome _ (feedPure s.curParser b) = _
  cases hf : feedPure s.curParser b with
  | error e => rw [hf] at h; cases h
  | ok x => rw [hf] at h; cases h; rfl

theorem execPFeed_pending_refused {b : Byte} {s : State} {e : Refusal} (h : execPFeed b s = .refused e)
    (lines : List Line) : execPFeed b { s with pending := lines } = .refused e := by
  rw [execPFeed_eq] at h ⊢
  show State.feedOutcome _ (feedPure s.curParser b) = _
  cases hf : feedPure s.curParser b with
  | error e => rw [hf] at h; cases h; rfl
  | ok x => rw [hf] at h; cases h

theorem traceSame_of_execPFeed {b : Byte} {s t : State} (h : execPFeed b s = .next t) : TraceSame s t := by
  obtain ⟨_, _, hstep, -⟩ := exec_local (i := .pFeed b) h
  exact hstep.trace

theorem run_succ_of_next {M : Host.Core} {s t : M.State} (h : M.step s = .next t) (n : Nat) :
    M.run (n + 1) s = M.run n t := by simp only [Host.Core.run, h]

theorem run_succ_of_refused {M : Host.Core} {s : M.State} {e : M.Refusal} (h : M.step s = .refused e) (n : Nat) :
    M.run (n + 1) s = .refused e := by simp only [Host.Core.run, h]

theorem feedAll_cons_of_next {b : Byte} {s t : State} (h : execPFeed b s = .next t) (bs : List Byte) :
    feedAll (b :: bs) s = feedAll bs t := by rw [feedAll, h]

theorem feedAll_cons_of_refused {b : Byte} {s : State} {e : Refusal} (h : execPFeed b s = .refused e) (bs : List Byte) :
    feedAll (b :: bs) s = .refused e := by rw [feedAll, h]

/-- The first of several lines of bytes: its step is its `P.FEED`, after which the others are first. -/
theorem run_byte_line {k n : Nat} {b : Byte} {bs : List Byte} {lines later : List Line} {s : State}
    (hrest : ∀ t : State, t.cur = k → t.pending = later →
      Host.Core.run Sys2Proof.core n { t with pending := lines } = feedAll bs t) :
    Host.Core.run Sys2Proof.core (n + 1) { s with pending := ⟨k, .byte b⟩ :: lines } =
      feedAll (b :: bs) (s.take k later) := by
  have hstep : step { s with pending := ⟨k, .byte b⟩ :: lines } = execPFeed b { s.take k later with pending := lines } :=
    step_of_byte rfl
  cases hf : execPFeed b (s.take k later) with
  | fault r => exact nomatch r
  | refused e =>
    rw [execPFeed_pending_refused hf] at hstep
    exact (run_succ_of_refused hstep n).trans (feedAll_cons_of_refused hf bs).symm
  | next t =>
    rw [execPFeed_pending_next hf] at hstep
    obtain ⟨hcur, hpending⟩ := traceSame_of_execPFeed hf
    exact (run_succ_of_next hstep n).trans ((hrest t hcur hpending).trans (feedAll_cons_of_next hf bs).symm)

theorem run_feedLines {k : Nat} (bs : List Byte) {later : List Line} {s : State} (hcur : s.cur = k)
    (hpending : s.pending = later) :
    Host.Core.run Sys2Proof.core bs.length { s with pending := feedLines k bs ++ later } = feedAll bs s := by
  induction bs generalizing s with
  | nil => subst hpending; rfl
  | cons b bs ih =>
    have hself : s.take k later = s := by subst hcur hpending; rfl
    exact (run_byte_line fun t => ih).trans (by rw [hself])

/-- Settles O52: the first line's step addresses the number the others name too. -/
theorem stepsOverBytesAreFeeds : Obligations.StepsOverBytesAreFeeds :=
  fun _ _ bs _ _ => run_byte_line fun _ => run_feedLines bs

end Sys2Proof.Machine

/-! PROOFS. The invariant of the machine, and runs of a host that keeps its duties (10_state.md section 2, 60_exceptions.md
section 3). -/

namespace Sys2Proof.Machine

/-! ### Every way of changing the state keeps the invariant -/

/-- Settles O58: every parser is in `INIT`, and the lists are empty. -/
theorem resetMeetsTheInvariant : Obligations.ResetMeetsTheInvariant :=
  ⟨fun _ => parserInv_init, rfl, rfl, rfl, rfl, fun _ hd => nomatch hd⟩

theorem Inv.take {s : State} (h : Inv s) (k : Nat) (lines : List Line) : Inv (s.take k lines) :=
  ⟨h.parser, h.parsers, h.xorAccs, h.crcAccs, h.dst, h.delivered⟩

theorem Inv.setParser {s : State} (h : Inv s) (k : Nat) {p : ParserState} (hp : ParserInv p) : Inv (s.setParser k p) := by
  refine ⟨fun j => ?_, bankWf_put _ k p h.parsers, h.xorAccs, h.crcAccs, h.dst, h.delivered⟩
  by_cases hj : j = k
  · subst hj
    rw [setParser_parser_same]; exact hp
  · rw [setParser_parser_other s hj]; exact h.parser j

theorem Inv.setXorReg {s : State} (h : Inv s) (k : Nat) (v : Byte) : Inv (s.setXorReg k v) :=
  ⟨h.parser, h.parsers, bankWf_put _ k v h.xorAccs, h.crcAccs, h.dst, h.delivered⟩

theorem Inv.setCrcReg {s : State} (h : Inv s) (k : Nat) (v : Byte) : Inv (s.setCrcReg k v) :=
  ⟨h.parser, h.parsers, h.xorAccs, bankWf_put _ k v h.crcAccs, h.dst, h.delivered⟩

theorem Inv.writeAll {s : State} (h : Inv s) (bs : List Byte) : Inv { s with dst := s.dst.writeAll 0 bs } :=
  ⟨h.parser, h.parsers, h.xorAccs, h.crcAccs, Memory.wf_writeAll h.dst 0 bs, h.delivered⟩

theorem Inv.deliver {s : State} (h : Inv s) {r : Result} (hr : ResultSound r) : Inv (s.deliver r) := by
  refine ⟨h.parser, h.parsers, h.xorAccs, h.crcAccs, h.dst, fun d hd => ?_⟩
  rcases List.mem_append.1 hd with hd | hd
  · exact h.delivered d hd
  · rw [List.mem_singleton.1 hd]; exact hr

/-- R150, R32: a `P.FEED` is never refused under the invariant, and keeps it. -/
theorem Inv.exists_execPFeed {s : State} (h : Inv s) (b : Byte) : ∃ t, execPFeed b s = .next t ∧ Inv t := by
  obtain ⟨q, r, hf, hq, -, hr⟩ := (h.parser s.cur).feedsWell b
  refine ⟨_, ?_, (h.setParser s.cur hq).deliver hr⟩
  rw [execPFeed_eq, State.curParser, hf]; rfl

theorem Inv.exists_feedAll {s : State} (h : Inv s) (w : List Byte) : ∃ t, feedAll w s = .next t ∧ Inv t := by
  induction w generalizing s with
  | nil => exact ⟨s, rfl, h⟩
  | cons b w ih =>
    obtain ⟨t, ht, hinv⟩ := h.exists_execPFeed b
    rw [feedAll_cons_of_next ht]
    exact ih hinv

theorem Inv.of_action {s t : State} (h : Inv s) {a : Action} (ha : a.Sound) (hrun : a.run s = .next t) : Inv t := by
  cases a with
  | refuse r => cases hrun
  | feed w =>
    obtain ⟨t', ht', hinv⟩ := h.exists_feedAll w
    obtain rfl : t' = t := Host.Outcome.next.inj (ht'.symm.trans hrun)
    exact hinv
  | resetParser => cases hrun; exact h.setParser _ parserInv_init
  | setXor v => cases hrun; exact h.setXorReg _ v
  | setCrc v => cases hrun; exact h.setCrcReg _ v
  | result r => cases hrun; exact h.deliver ha
  | store bs => cases hrun; exact (h.writeAll bs).deliver ha

theorem Inv.of_exec {s t : State} (h : Inv s) {i : Instr} (hfits : i.fits = true) (hexec : exec i s = .next t) :
    Inv t := by
  obtain ⟨a, ha, hrun⟩ := exec_eq_action i (s.regs s.cur)
  exact h.of_action (ha hfits) ((hrun s rfl).symm.trans hexec)

theorem Inv.of_step {s t : State} (h : Inv s) (hstep : step s = .next t) : Inv t := by
  rcases step_next_cases hstep with rfl | ⟨k, lines, rfl⟩ | ⟨i, k, lines, hfits, hexec⟩
  · exact h
  · exact h.take k lines
  · exact (h.take k lines).of_exec hfits hexec

/-- Settles O59: taking a line keeps the invariant, and so does every action with sound results. -/
theorem everyStepKeepsTheInvariant : Obligations.EveryStepKeepsTheInvariant := fun _ _ h hstep => h.of_step hstep

/-! ### A host that keeps its duties -/

theorem operation_fits_of_acceptable {i : Instr} (h : Request.acceptable (.op i) = true) :
    i.isOperation = true ∧ i.fits = true := by
  cases i
  case serV1 => exact ⟨rfl, (Bool.and_eq_true_iff.1 h).1⟩
  all_goals exact Bool.and_eq_true_iff.1 h

/-- R132, R240: the one duty beyond operands that fit. -/
theorem length_of_acceptable_serV1 {f : Frame} {n : Nat} (h : Request.acceptable (.op (.serV1 f n)) = true) :
    f.payload.length ≤ 255 := of_decide_eq_true (Bool.and_eq_true_iff.1 h).2

/-- R212: an operation in range is never refused. -/
theorem Inv.exec_operation {s : State} (h : Inv s) {i : Instr} (hi : Request.acceptable (.op i) = true) :
    ∃ t, exec i s = .next t := by
  obtain ⟨hop, hfits⟩ := operation_fits_of_acceptable hi
  cases i
  case pFeed b =>
    obtain ⟨t, ht, -⟩ := h.exists_execPFeed b
    exact ⟨t, ht⟩
  case serV1 f n => exact ⟨_, exec_serV1 (length_of_acceptable_serV1 hi) n s⟩
  case serV2 f n => exact ⟨_, exec_serV2 (of_decide_eq_true hfits) n s⟩
  case xorReset | xorUpdate | xorUpdateBulk | xorValue | crc8Reset | crc8Update | crc8UpdateBulk | crc8Finalize
    | frameSize | pReset => exact ⟨_, rfl⟩
  all_goals cases hop

/-- R240: every line still to be taken is one a host that keeps its duties may present. -/
def Acceptable (lines : List Line) : Prop := ∀ l ∈ lines, Request.acceptable l.request = true

theorem acceptable_cons {l : Line} {lines : List Line} :
    Acceptable (l :: lines) ↔ Request.acceptable l.request = true ∧ Acceptable lines := List.forall_mem_cons

theorem acceptable_restOfBurst {k : Nat} {rest : List Byte} {later : List Line} (h : Acceptable later) :
    Acceptable (restOfBurst k rest later) := by
  cases rest with
  | nil => exact h
  | cons b bs => exact acceptable_cons.2 ⟨rfl, h⟩

theorem acceptable_feedLines {k : Nat} {bs : List Byte} {later : List Line} (h : Acceptable later) :
    Acceptable (feedLines k bs ++ later) := by
  intro l hl
  rcases List.mem_append.1 hl with hl | hl
  · obtain ⟨b, -, rfl⟩ := List.mem_map.1 hl
    rfl
  · exact h l hl

theorem acceptable_after_exec {s t : State} {k : Nat} {lines : List Line} {i : Instr} (h : Acceptable lines)
    (hexec : exec i (s.take k lines) = .next t) : Acceptable t.pending := by
  obtain ⟨_, _, hstep, -⟩ := exec_local hexec
  rw [hstep.trace.2]
  exact h

/-- R212: under the invariant a step with an acceptable line first runs it, and leaves acceptable lines. -/
theorem Inv.step_progress {s : State} (h : Inv s) (hs : Acceptable s.pending) :
    ∃ t, step s = .next t ∧ Acceptable t.pending := by
  cases hp : s.pending with
  | nil => exact ⟨s, step_of_idle hp, hs⟩
  | cons l later =>
    obtain ⟨k, q⟩ := l
    rw [hp] at hs
    obtain ⟨hq, hlater⟩ := acceptable_cons.1 hs
    cases q with
    | byte b =>
      obtain ⟨t, ht, -⟩ := (h.take k later).exists_execPFeed b
      exact ⟨t, (step_of_byte hp).trans ht, acceptable_after_exec (i := .pFeed b) hlater ht⟩
    | burst bs =>
      cases hf : decodeFrame bs with
      | none => exact ⟨_, step_of_noFrameRow hp hf, acceptable_feedLines hlater⟩
      | some x =>
        obtain ⟨i, rest⟩ := x
        obtain ⟨w, henc, -, -⟩ := decodeFrame_sound hf
        obtain ⟨t, ht, -⟩ := (h.take k (restOfBurst k rest later)).exists_feedAll w
        rw [← exec_of_encode_burst henc] at ht
        exact ⟨t, (step_of_decode_ok hp (decode_burst hf)).trans ht,
          acceptable_after_exec (acceptable_restOfBurst hlater) ht⟩
    | op i =>
      obtain ⟨hop, hfits⟩ := operation_fits_of_acceptable hq
      obtain ⟨t, ht⟩ := (h.take k later).exec_operation hq
      exact ⟨t, (step_of_decode_ok hp (decode_op hop hfits)).trans ht, acceptable_after_exec hlater ht⟩

theorem run_of_inv {s : State} (h : Inv s) (hs : Acceptable s.pending) (n : Nat) :
    ∃ t, Host.Core.run Sys2Proof.core n s = .next t ∧ Inv t ∧ Acceptable t.pending := by
  induction n generalizing s with
  | zero => exact ⟨s, rfl, h, hs⟩
  | succ n ih =>
    obtain ⟨t, hstep, ht⟩ := h.step_progress hs
    obtain ⟨u, hu, hrest⟩ := ih (h.of_step hstep) ht
    exact ⟨u, (run_succ_of_next hstep n).trans hu, hrest⟩

/-- Settles O60: by induction on the steps, each of which is taken and keeps both. -/
theorem dutifulHostIsNeverStopped : Obligations.DutifulHostIsNeverStopped := by
  intro n s h hs
  obtain ⟨t, ht, hinv, hduties⟩ := run_of_inv h hs n
  refine ⟨⟨t, ht⟩, fun t' ht' => ?_⟩
  obtain rfl : t = t' := Host.Outcome.next.inj (ht.symm.trans ht')
  exact ⟨hinv, hduties⟩

end Sys2Proof.Machine

/-! PROOFS. How far a parser is from `INIT`, and how far it has come (43_parser.md section 7, R182 and R183). -/

namespace Sys2Proof.Machine

/-! ### Two measures of a control state -/

/-- The most bytes a parser in a control state can still take before it is in `INIT`, where `n` payload bytes remain. -/
def bytesLeft : StateId → Nat → Nat
  | .s0, _ => 0
  | .s1, _ => 65543
  | .s2, _ => 259
  | .s3, _ => 65542
  | .s4, _ => 258
  | .s5, n => n + 2
  | .s6, n => n + 1
  | .s7, n => n + 1
  | .s8, _ => 65541
  | .s9, _ => 65540
  | .s10, _ => 65539
  | .s11, _ => 65538
  | .s12, _ => 65537
  | .s13, n => n + 1
  | .s14, n => n + 1

/-- The fewest bytes that lead from `INIT` to a control state, counted no further than the payload. -/
def bytesTaken : StateId → Nat
  | .s0 => 0
  | .s1 => 1
  | .s2 => 2
  | .s3 => 2
  | .s4 => 3
  | .s5 => 4
  | .s6 => 5
  | .s7 => 5
  | .s8 => 3
  | .s9 => 4
  | .s10 => 5
  | .s11 => 5
  | .s12 => 5
  | .s13 => 5
  | .s14 => 5

def distance (p : ParserState) : Nat :=
  match p.stateId with
  | some st => bytesLeft st p.remaining.toNat
  | none => 0

def depth (p : ParserState) : Nat :=
  match p.stateId with
  | some st => bytesTaken st
  | none => 0

theorem distance_of_stateId {p : ParserState} {st : StateId} (h : p.stateId = some st) :
    distance p = bytesLeft st p.remaining.toNat := by rw [distance, h]

theorem depth_of_stateId {p : ParserState} {st : StateId} (h : p.stateId = some st) : depth p = bytesTaken st := by
  rw [depth, h]

/-- Where `remaining` is tested for zero, the control states of both outcomes measure the same. -/
theorem stateId_of_payloadOrChecksum {p : ParserState} (hphase : p.phase = payloadOrChecksum p.remaining)
    (hrev : p.rev = .v1 ∨ p.rev = .v2) (hidx : p.idx = false) :
    ∃ st, p.stateId = some st ∧ (∀ n, bytesLeft st n = n + 1) ∧ bytesTaken st = 5 := by
  by_cases hr : p.remaining = 0
  · rw [hr] at hphase
    rcases hrev with hrev | hrev
    · exact ⟨.s7, stateId_of_fields .s7 hphase hrev hidx, fun _ => rfl, rfl⟩
    · exact ⟨.s14, stateId_of_fields .s14 hphase hrev hidx, fun _ => rfl, rfl⟩
  · rw [payloadOrChecksum, if_neg hr] at hphase
    rcases hrev with hrev | hrev
    · exact ⟨.s6, stateId_of_fields .s6 hphase hrev hidx, fun _ => rfl, rfl⟩
    · exact ⟨.s13, stateId_of_fields .s13 hphase hrev hidx, fun _ => rfl, rfl⟩

/-- `q` follows `p`: nearer to the next `INIT`, and at most one byte further from the last. -/
def Follows (p q : ParserState) : Prop := distance q < distance p ∧ depth q ≤ depth p + 1

section
variable {p q : ParserState} {st : StateId} (hs : p.stateId = some st)
include hs

theorem follows_of_fields (st' : StateId) (hphase : q.phase = (controlOf st').phase) (hrev : q.rev = (controlOf st').rev)
    (hidx : q.idx = (controlOf st').idx) (hleft : bytesLeft st' q.remaining.toNat < bytesLeft st p.remaining.toNat)
    (htaken : bytesTaken st' ≤ bytesTaken st + 1) : Follows p q := by
  have hs' := stateId_of_fields st' hphase hrev hidx
  rw [Follows, distance_of_stateId hs', distance_of_stateId hs, depth_of_stateId hs', depth_of_stateId hs]
  exact ⟨hleft, htaken⟩

theorem follows_of_payloadOrChecksum (hphase : q.phase = payloadOrChecksum q.remaining)
    (hrev : q.rev = .v1 ∨ q.rev = .v2) (hidx : q.idx = false)
    (hleft : q.remaining.toNat + 1 < bytesLeft st p.remaining.toNat) (htaken : 5 ≤ bytesTaken st + 1) : Follows p q := by
  obtain ⟨st', hs', hleft', htaken'⟩ := stateId_of_payloadOrChecksum hphase hrev hidx
  rw [Follows, distance_of_stateId hs', distance_of_stateId hs, depth_of_stateId hs', depth_of_stateId hs, hleft', htaken']
  exact ⟨hleft, htaken⟩

theorem init_follows (hpos : 0 < bytesLeft st p.remaining.toNat) : Follows p ParserState.init := by
  rw [Follows, distance_of_stateId hs]
  exact ⟨hpos, Nat.zero_le _⟩

end

theorem half_pred_lt {r : Half} (hr : r ≠ 0) : (r - 1).toNat + 1 < r.toNat + 1 := by
  have hpos := one_le_toNat hr
  rw [half_pred hpos]; omega

/-- R176: outside S0 the ParserState after an accepted byte follows the one before; one case for each control state. -/
theorem follows_of_feedPure {p q : ParserState} {b : Byte} {r : FeedResult} (h : feedPure p b = .ok (q, r))
    (hs0 : p.stateId ≠ some .s0) : Follows p q := by
  cases hs : p.stateId with
  | none => simp [feedPure, hs] at h
  | some st =>
    obtain ⟨hphase, hrev, hidx⟩ := fields_of_stateId hs
    cases st <;> simp only [feedPure, hs] at h
    case s0 => exact absurd hs hs0
    case s1 =>
      split_ifs at h <;> cases h
      · exact follows_of_fields hs .s2 rfl rfl hidx (show 259 < 65543 by decide) (Nat.le_refl 2)
      · exact follows_of_fields hs .s3 rfl rfl hidx (show 65542 < 65543 by decide) (Nat.le_refl 2)
      · exact init_follows hs (show 0 < 65543 by decide)
    case s2 =>
      cases hd : dirOf b <;> rw [hd] at h <;> cases h
      · exact init_follows hs (show 0 < 259 by decide)
      · exact follows_of_fields hs .s4 rfl hrev hidx (show 258 < 259 by decide) (Nat.le_refl 3)
    case s3 =>
      cases hd : dirOf b <;> rw [hd] at h <;> cases h
      · exact init_follows hs (show 0 < 65542 by decide)
      · exact follows_of_fields hs .s8 rfl hrev hidx (show 65541 < 65542 by decide) (Nat.le_refl 3)
    case s4 =>
      cases h
      have hlen : (zext16 b).toNat + 2 < 258 := by
        have := b.isLt
        rw [zext16_toNat]; omega
      exact follows_of_fields hs .s5 rfl hrev hidx hlen (Nat.le_refl 4)
    case s5 =>
      cases h
      exact follows_of_payloadOrChecksum hs rfl (.inl hrev) hidx (Nat.lt_succ_self _) (Nat.le_refl 5)
    case s6 =>
      split_ifs at h with hr
      cases h
      exact follows_of_payloadOrChecksum hs rfl (.inl hrev) hidx (half_pred_lt hr) (Nat.le_succ 5)
    case s7 => split_ifs at h <;> cases h <;> exact init_follows hs (Nat.succ_pos _)
    case s8 =>
      cases h
      exact follows_of_fields hs .s9 rfl hrev rfl (show 65540 < 65541 by decide) (Nat.le_refl 4)
    case s9 =>
      cases h
      exact follows_of_fields hs .s10 hphase hrev rfl (show 65539 < 65540 by decide) (Nat.le_refl 5)
    case s10 =>
      cases h
      exact follows_of_fields hs .s11 rfl hrev rfl (show 65538 < 65539 by decide) (Nat.le_succ 5)
    case s11 =>
      cases h
      exact follows_of_fields hs .s12 hphase hrev rfl (show 65537 < 65538 by decide) (Nat.le_succ 5)
    case s12 =>
      cases h
      exact follows_of_payloadOrChecksum hs rfl (.inr hrev) rfl (Nat.succ_lt_succ (p.announced b).isLt) (Nat.le_succ 5)
    case s13 =>
      split_ifs at h with hr
      cases h
      exact follows_of_payloadOrChecksum hs rfl (.inr hrev) hidx (half_pred_lt hr) (Nat.le_succ 5)
    case s14 => split_ifs at h <;> cases h <;> exact init_follows hs (Nat.succ_pos _)

/-! ### Towards `INIT` (R182) -/

theorem ParserInv.eq_init_of_s0 {p : ParserState} (hp : ParserInv p) (hs : p.stateId = some .s0) :
    p = ParserState.init := by
  simpa only [ParserInv, hs] using hp

theorem ParserInv.eq_init_of_distance {p : ParserState} (hp : ParserInv p) (h : distance p = 0) :
    p = ParserState.init := by
  refine hp.eq_init_of_s0 (by_contra fun hs => ?_)
  obtain ⟨q, r, hf, -⟩ := hp.feedsWell 0x00
  obtain ⟨hlt, -⟩ := follows_of_feedPure hf hs
  omega

/-- R182: whatever the bytes are, enough of them contain a point at which the parser is in `INIT`. -/
theorem exists_take_init {p : ParserState} (hp : ParserInv p) {bs : List Byte} (hlen : distance p ≤ bs.length) :
    ∃ n rs, n ≤ distance p ∧ feedsPure p (bs.take n) = .ok (ParserState.init, rs) := by
  induction bs generalizing p with
  | nil => exact ⟨0, [], Nat.zero_le _, by rw [hp.eq_init_of_distance (Nat.le_zero.1 hlen)]; rfl⟩
  | cons b bs ih =>
    by_cases hs : p.stateId = some .s0
    · exact ⟨0, [], Nat.zero_le _, by rw [hp.eq_init_of_s0 hs]; rfl⟩
    · obtain ⟨q, r, hf, hq, -⟩ := hp.feedsWell b
      obtain ⟨hlt, -⟩ := follows_of_feedPure hf hs
      rw [List.length_cons] at hlen
      obtain ⟨n, rs, hn, hrun⟩ := ih hq (by omega)
      exact ⟨n + 1, r :: rs, by omega, feedsPure_cons hf hrun⟩

/-- The bound of R182 on the bytes after a sync byte, by the first of them. -/
theorem distance_after_tag (tag : Byte) :
    ∃ q r, feedPure { ParserState.init with phase := .versionTag } tag = .ok (q, r) ∧ ParserInv q ∧
      distance q + 1 = if tag = 0x4D then 260 else if tag = 0x58 then 65543 else 1 := by
  obtain ⟨q, r, hf, hq, -⟩ := feedsWell_s1 tag
  refine ⟨q, r, hf, hq, ?_⟩
  have hs : ({ ParserState.init with phase := .versionTag } : ParserState).stateId = some .s1 := rfl
  show distance q + 1 = if tag = tagV1 then 260 else if tag = tagV2 then 65543 else 1
  simp only [feedPure, hs] at hf
  split_ifs at hf ⊢ <;> cases hf <;> rfl

/-- Settles O46: the version tag fixes the distance, and every further byte lessens it. -/
theorem parserReturnsToInitWithinTheBound : Obligations.ParserReturnsToInitWithinTheBound := by
  intro tag bs s hs hlen
  obtain ⟨q, r, hf, hq, hdist⟩ := distance_after_tag tag
  rw [← hdist] at hlen ⊢
  obtain ⟨n, rs, hn, hrun⟩ := exists_take_init hq (Nat.le_of_succ_le_succ hlen)
  exact ⟨n + 1, Nat.succ_pos n, Nat.succ_le_succ hn, r :: rs, bytesTo_iff.2 (hs ▸ feedsPure_cons hf hrun)⟩

/-! ### Away from `INIT` (R183) -/

theorem depth_le_of_feedPure {p q : ParserState} {b : Byte} {r : FeedResult} (h : feedPure p b = .ok (q, r)) :
    depth q ≤ depth p + 1 := by
  by_cases hs : p.stateId = some .s0
  · obtain ⟨-, hrev, hidx⟩ := fields_of_stateId hs
    simp only [feedPure, hs] at h
    split_ifs at h <;> cases h
    · exact le_of_eq_of_le (depth_of_stateId (stateId_of_fields (p := { p with phase := .versionTag }) .s1 rfl hrev hidx))
        (Nat.le_add_left 1 _)
    · exact Nat.le_succ _
  · exact (follows_of_feedPure h hs).2

theorem depth_le_of_feedsPure {p q : ParserState} {w : List Byte} {rs : List FeedResult}
    (h : feedsPure p w = .ok (q, rs)) : depth q ≤ depth p + w.length := by
  induction w generalizing p rs with
  | nil => cases h; exact Nat.le_refl _
  | cons b w ih =>
    obtain ⟨p', r, rs', hb, hw, -⟩ := feedsPure_cons_eq_ok.1 h
    have hstep := depth_le_of_feedPure hb
    have hrest := ih hw
    rw [List.length_cons]
    omega

/-- R170, R172: a Frame is given in S7 and S14 alone. -/
theorem depth_of_feedPure_frame {p q : ParserState} {b : Byte} {f : Frame} (h : feedPure p b = .ok (q, .frame f)) :
    depth p = 5 := by
  cases hs : p.stateId with
  | none => simp [feedPure, hs] at h
  | some st =>
    rw [depth_of_stateId hs]
    cases st <;> simp only [feedPure, hs] at h
    case s7 | s14 => rfl
    case s2 | s3 => split at h <;> cases h
    case s0 | s1 | s6 | s13 => split_ifs at h <;> cases h
    all_goals cases h

/-- R152, R153: in `INIT` every byte gives `None`. -/
theorem noFrame_of_feedPure_init {q : ParserState} {b : Byte} {r : FeedResult}
    (h : feedPure ParserState.init b = .ok (q, r)) : r = .noFrame := by
  simp only [feedPure, init_stateId] at h
  split_ifs at h <;> cases h <;> rfl

theorem ParserInv.of_feedsPure {p q : ParserState} (hp : ParserInv p) {w : List Byte} {rs : List FeedResult}
    (h : feedsPure p w = .ok (q, rs)) : ParserInv q := by
  obtain ⟨q', rs', h', hq', -⟩ := hp.exists_feedsPure w
  obtain ⟨rfl, -⟩ := Prod.mk.inj (Except.ok.inj (h.symm.trans h'))
  exact hq'

theorem ParserInv.init_of_result {p q : ParserState} (hp : ParserInv p) {b : Byte} {r : FeedResult}
    (h : feedPure p b = .ok (q, r)) (hr : r ≠ .noFrame) : q = ParserState.init := by
  obtain ⟨q', r', h', -, hinit, -⟩ := hp.feedsWell b
  obtain ⟨rfl, rfl⟩ := Prod.mk.inj (Except.ok.inj (h.symm.trans h'))
  exact hinit hr

/-- Settles O48: the last byte alone gives a result; before it the parser is no deeper than the bytes it took. -/
theorem resultsNeedTheirBytes : Obligations.ResultsNeedTheirBytes := by
  intro w s p n r hs hr hrun
  rw [bytesTo_iff, hs] at hrun
  have hlen : w.length = n + 1 := by simpa using (length_of_feedsPure hrun).symm
  obtain ⟨u, b, rfl⟩ : ∃ u b, w = u ++ [b] :=
    ⟨_, _, (List.dropLast_concat_getLast (List.ne_nil_of_length_eq_add_one hlen)).symm⟩
  obtain ⟨p', rs, rs', hu, hlast, hrs⟩ := feedsPure_append_eq_ok.1 hrun
  obtain ⟨r', hb, rfl⟩ := feedsPure_singleton_eq_ok.1 hlast
  obtain rfl : r = r' := List.singleton_inj.1 (List.append_inj' hrs rfl).2
  refine ⟨(parserInv_init.of_feedsPure hu).init_of_result hb hr, hlen, ?_, ?_⟩
  · cases u with
    | nil => cases hu; exact absurd (noFrame_of_feedPure_init hb) hr
    | cons b' u => simp
  · rintro f rfl
    have hdepth := depth_le_of_feedsPure hu
    rw [depth_of_feedPure_frame hb] at hdepth
    rw [List.length_append]
    exact Nat.succ_le_succ (hdepth.trans_eq (Nat.zero_add _))

end Sys2Proof.Machine

/-! PROOFS. The laws of the two checksums (40_checksum_xor.md section 3, 41_checksum_crc8.md section 3). -/

namespace Sys2Proof.Machine

/-! ### XOR (R105) -/

theorem xorSum_append (s t : List Byte) : xorSum (s ++ t) = xorSum s ^^^ xorSum t := by
  rw [xorSum, xorBulk_append, xorBulk_eq]; rfl

theorem xorBulk_perm {s t : List Byte} (h : s.Perm t) (a : Byte) : xorBulk a s = xorBulk a t :=
  h.foldl_eq' (fun x _ y _ z => by simp only [xorFold]; ac_rfl) a

theorem xorSum_change_byte (s t : List Byte) (x d : Byte) :
    xorSum (s ++ (x ^^^ d) :: t) = xorSum (s ++ x :: t) ^^^ d := by
  have hcons (b : Byte) : xorSum (b :: t) = b ^^^ xorSum t := by
    rw [xorSum, xorBulk_cons, xorBulk_eq]
    simp [xorFold, xorInit, xorSum]
  rw [xorSum_append, xorSum_append, hcons, hcons]
  ac_rfl

theorem xor_ne_self {a d : Byte} (hd : d ≠ 0x00) : a ^^^ d ≠ a := by
  intro h
  exact hd (by simpa [← BitVec.xor_assoc] using congrArg (a ^^^ ·) h)

/-- Settles O10: the sum is a fold of exclusive or, from which a start value can be taken out. -/
theorem xorSumLaws : Obligations.XorSumLaws := by
  refine ⟨rfl, xorSum_snoc, xorSum_append, fun s t h => xorBulk_perm h xorInit, fun s => ?_, fun s t x d hd => ?_⟩
  · rw [xorSum_snoc, xorFold_self]
  · rw [xorSum_change_byte]
    exact ⟨rfl, xor_ne_self hd⟩

/-! ### CRC-8 (R116) -/

theorem crcSum_eq (s : List Byte) : crcSum s = crcBulk crcInit s := crcFinal_eq _

theorem crcInit_eq : crcInit = 0x00 := rfl

theorem crcInit_xor_self : crcInit ^^^ crcInit = crcInit := by decide

theorem crcBulk_zipWith {s t : List Byte} (h : s.length = t.length) (c d : Byte) :
    crcBulk (c ^^^ d) (List.zipWith (fun a b => a ^^^ b) s t) = crcBulk c s ^^^ crcBulk d t := by
  induction s generalizing t c d with
  | nil =>
    obtain rfl : t = [] := List.length_eq_zero_iff.1 h.symm
    rfl
  | cons a s ih =>
    cases t with
    | nil => cases h
    | cons b t =>
      rw [List.zipWith_cons_cons, crcBulk_cons, crcFold_xor, ih (Nat.succ.inj h)]; rfl

/-- Equal bytes tell register values apart. -/
theorem crcBulk_inj_left {c d : Byte} {s : List Byte} (h : crcBulk c s = crcBulk d s) : c = d := by
  induction s generalizing c d with
  | nil => exact h
  | cons b s ih => exact crcFold_inj_left (ih h)

/-- Settles O11: an update is linear, sends equal register and byte to 0, and tells registers and bytes apart. -/
theorem crcSumLaws : Obligations.CrcSumLaws := by
  refine ⟨rfl, fun s t => ?_, fun s t h => ?_, fun s => ?_, fun s => ?_, fun s t x y hxy heq => hxy ?_⟩
  · rw [crcFinal_eq, crcSum_eq, crcSum_eq, crcBulk_append]
  · rw [crcSum_eq, crcSum_eq, crcSum_eq, ← crcBulk_zipWith h, crcInit_xor_self]
  · rw [crcSum_eq, crcSum_eq, crcBulk_cons, crcInit_eq, crcFold_self]
  · rw [crcSum_eq (s ++ _), crcBulk_snoc, ← crcSum_eq, crcFold_self]
  · rw [crcSum_eq, crcSum_eq, crcBulk_append, crcBulk_append, crcBulk_cons, crcBulk_cons] at heq
    exact crcFold_inj_right (crcBulk_inj_left heq)

end Sys2Proof.Machine

/-! PROOFS. The stand-alone accumulators, and what reset holds (10_state.md section 5, 40_checksum_xor.md and
41_checksum_crc8.md). -/

namespace Sys2Proof.Machine

/-- Settles O1: after reset nothing is entered, so every number reads as its reset value. -/
theorem resetHoldsEveryRegisterAtItsResetValue : Obligations.ResetHoldsEveryRegisterAtItsResetValue :=
  ⟨fun k => by rw [reset_parser]; exact ⟨rfl, rfl, rfl, rfl, rfl, rfl, rfl, rfl, rfl⟩,
    reset_xorReg, reset_crcReg, fun _ => rfl, rfl, rfl, rfl⟩

/-- Settles O2: one write of `INIT` to the addressed parser. -/
theorem parserResetWritesInit : Obligations.ParserResetWritesInit := by
  intro s
  refine ⟨_, rfl, setParser_parser_same .., (List.append_nil _).symm, fun k hk => setParser_parser_other s hk _,
    fun _ => rfl, fun _ => rfl, fun _ => rfl, rfl, rfl⟩

theorem setCrcReg_onlyCrcReg (s : State) (v : Byte) : OnlyCrcReg s (s.setCrcReg s.cur v) :=
  ⟨fun k => setCrcReg_parser s s.cur k v, fun k => setCrcReg_xorReg s s.cur k v,
    fun _ hk => setCrcReg_crcReg_other s hk v, fun _ => rfl, rfl, rfl⟩

theorem deliver_onlyCrcReg (s : State) (r : Result) : OnlyCrcReg s (s.deliver r) :=
  ⟨deliver_parser s r, deliver_xorReg s r, fun k _ => deliver_crcReg s r k, fun _ => rfl, rfl, rfl⟩

/-- Settles O3: each reset is one write of the reset value. -/
theorem accumulatorResetsWriteZero : Obligations.AccumulatorResetsWriteZero := fun s =>
  ⟨⟨_, rfl, setXorReg_xorReg_same .., rfl, setXorReg_onlyXorReg s _⟩,
    ⟨_, rfl, setCrcReg_crcReg_same .., rfl, setCrcReg_onlyCrcReg s _⟩⟩

theorem exec_xorUpdateBulk (bs : List Byte) (s : State) :
    exec (.xorUpdateBulk bs) s = .next (s.setXorReg s.cur (xorBulk (s.xorReg s.cur) bs)) := rfl

theorem exec_crc8Update (b : Byte) (s : State) :
    exec (.crc8Update b) s = .next (s.setCrcReg s.cur (crcFold (s.crcReg s.cur) b)) := rfl

theorem exec_crc8UpdateBulk (bs : List Byte) (s : State) :
    exec (.crc8UpdateBulk bs) s = .next (s.setCrcReg s.cur (crcBulk (s.crcReg s.cur) bs)) := rfl

theorem exec_crc8Finalize (s : State) :
    exec .crc8Finalize s = .next (s.deliver (.crcValue (s.crcReg s.cur))) := by
  rw [← crcFinal_eq (s.crcReg s.cur)]; rfl

/-- Settles O5: a fold, which permutes with itself and splits at any byte. -/
theorem xorUpdateBulkIsTheFold : Obligations.XorUpdateBulkIsTheFold := by
  intro bs s
  refine ⟨_, exec_xorUpdateBulk bs s, setXorReg_xorReg_same .., rfl, setXorReg_onlyXorReg .., ?empty, ?perm, ?split⟩
  case empty => rintro rfl; exact setXorReg_xorReg_same ..
  case perm =>
    intro cs hcs
    refine ⟨_, exec_xorUpdateBulk cs s, ?_⟩
    rw [setXorReg_xorReg_same, setXorReg_xorReg_same, xorBulk_perm hcs]
  case split =>
    rintro xs b ys rfl
    refine ⟨_, _, _, exec_xorUpdateBulk xs s, exec_xorUpdate b _, exec_xorUpdateBulk ys _, ?_⟩
    simp [xorBulk_append]

/-- Settles O8: a fold, which splits at any byte. -/
theorem crc8UpdateBulkIsTheFold : Obligations.Crc8UpdateBulkIsTheFold := by
  intro bs s
  refine ⟨_, exec_crc8UpdateBulk bs s, setCrcReg_crcReg_same .., rfl, setCrcReg_onlyCrcReg .., ?empty, ?split⟩
  case empty => rintro rfl; exact setCrcReg_crcReg_same ..
  case split =>
    rintro xs b ys rfl
    refine ⟨_, _, _, exec_crc8UpdateBulk xs s, exec_crc8Update b _, exec_crc8UpdateBulk ys _, ?_⟩
    simp [crcBulk_append]

/-- Settles O9: finalisation only delivers, and at the parameters of R111 it is the identity. -/
theorem crc8FinalizeReturnsTheRegister : Obligations.Crc8FinalizeReturnsTheRegister := by
  intro s
  refine ⟨_, exec_crc8Finalize s, deliver_crcReg .., deliver_delivered .., deliver_onlyCrcReg .., fun b => ?_⟩
  exact ⟨_, exec_crc8Update b _, setCrcReg_crcReg_same ..⟩

/-- R113: one shift at the parameters of R111, the tested bit named by its number. -/
theorem crcShift_eq (c : Byte) : crcShift crcParams c = if c.getLsbD 7 then (c <<< 1) ^^^ 0xD5 else c <<< 1 := by
  rw [crcShift, BitVec.msb_eq_getLsbD_last]; rfl

theorem crcFold_eq_foldl (c b : Byte) :
    crcFold c b =
      (List.range 8).foldl (fun c _ => if c.getLsbD 7 then (c <<< 1) ^^^ 0xD5 else c <<< 1) (c ^^^ b) := by
  simp only [crcFold_eq, crcShifts, crcShift_eq]; rfl

theorem crcFold_zero_left (b : Byte) : crcFold 0x00 b = crcShifts crcParams 8 b := by simp [crcFold_eq]

/-- R117: the table's entry. -/
theorem crcTable_getElem (x : Byte) : crcTable[x.toNat]? = some (crcFold 0x00 x) := by
  simp [crcTable, x.isLt]

/-- Settles O7: the update depends on `crc ^ b` alone, through the eight shifts or through the table. -/
theorem crc8UpdateShiftsEightTimes : Obligations.Crc8UpdateShiftsEightTimes := by
  intro b s
  have hreg : (s.setCrcReg s.cur (crcFold (s.crcReg s.cur) b)).crcReg s.cur = crcFold (s.crcReg s.cur) b :=
    setCrcReg_crcReg_same ..
  refine ⟨_, exec_crc8Update b s, ?shifts, ?table, ?zero, rfl, setCrcReg_onlyCrcReg ..⟩
  case shifts => rw [hreg, crcFold_eq_foldl]
  case table => rw [hreg, crcTable_getElem, crcFold_zero_left, crcFold_eq]
  case zero => rintro rfl; rw [hreg, crcFold_self]

end Sys2Proof.Machine

/-! PROOFS. Frame sizes and the serializer (42_serializer.md). -/

namespace Sys2Proof.Machine

theorem deliver_registersSame (s : State) (r : Result) : RegistersSame s (s.deliver r) :=
  ⟨deliver_parser s r, deliver_xorReg s r, deliver_crcReg s r, rfl, rfl⟩

/-- Settles O12: the size is a natural number, delivered as it is. -/
theorem frameSizeReturnsTheSize : Obligations.FrameSizeReturnsTheSize := by
  intro f rev s
  refine ⟨_, rfl, ?_, deliver_registersSame s _, fun _ => rfl⟩
  cases rev <;> rfl

theorem serialize_self_dst_inside (s : State) (bs : List Byte) {n a : Nat} (ha : a < bs.length) :
    (s.serialize n n bs).dst.read a = bs[a]? := by rw [serialize_dst_read, if_pos ha]

theorem serialize_self_dst_outside (s : State) (bs : List Byte) {n a : Nat} (ha : bs.length ≤ a) :
    (s.serialize n n bs).dst.read a = s.dst.read a := by rw [serialize_dst_read, if_neg (not_lt.2 ha)]

/-- Settles O13: the exact length stores the bytes of the V1 layout from index 0 on. -/
theorem serializeV1WritesTheFrame : Obligations.SerializeV1WritesTheFrame := by
  intro f s hp
  exact ⟨_, _, exec_serV1 hp _ s, rfl, serBytesV1_length f, serialize_self_delivered ..,
    fun _ ha => serialize_self_dst_inside s _ ha, fun _ ha => serialize_self_dst_outside s _ ha,
    serialize_registersSame ..⟩

/-- Settles O14: the exact length stores the bytes of the V2 layout from index 0 on. -/
theorem serializeV2WritesTheFrame : Obligations.SerializeV2WritesTheFrame := by
  intro f s hp
  refine ⟨_, _, _, exec_serV2 hp _ s, rfl, ?layout, serBytesV2_length f, serialize_self_delivered ..,
    fun _ ha => serialize_self_dst_inside s _ ha, fun _ ha => serialize_self_dst_outside s _ ha,
    serialize_registersSame ..⟩
  case layout => simp only [extractLsb'_low, extractLsb'_high]; rfl

/-- A serialize call of any other length delivers the error and nothing more. -/
theorem serialize_ne_frame {s : State} {size n : Nat} (hn : n ≠ size) (bs : List Byte) :
    (s.serialize size n bs).delivered = s.delivered ++ [⟨s.cur, .ser .sizeMismatch⟩] ∧
      RegistersSame s (s.serialize size n bs) ∧ DstSame s (s.serialize size n bs) := by
  rw [serialize_ne s hn]
  exact ⟨deliver_delivered .., deliver_registersSame s _, fun _ => rfl⟩

/-- Settles O15: the size is tested before anything is written. -/
theorem serializeWrongLengthWritesNothing : Obligations.SerializeWrongLengthWritesNothing := fun _ n s =>
  ⟨fun hp hn => ⟨_, exec_serV1 hp n s, serialize_ne_frame hn _⟩,
    fun hp hn => ⟨_, exec_serV2 hp n s, serialize_ne_frame hn _⟩⟩

/-- Settles O16: the payload limit is tested first. -/
theorem serializeOverLimitIsRefused : Obligations.SerializeOverLimitIsRefused := fun _ n s =>
  ⟨fun hp => execSerV1_over hp n s, fun hp => execSerV2_over hp n s⟩

end Sys2Proof.Machine

/-! PROOFS. What is left of the parser and of the tables: the default direction row, the V2 payload, what is refused, fixed
words and
error codes (43_parser.md, 30_encoding.md section 4, 60_exceptions.md section 1). -/

namespace Sys2Proof.Machine

/-- Settles O22: a byte that is no direction is left to the default row of S2 and S3. -/
theorem unknownDirectionByteIsInvalidDirection : Obligations.UnknownDirectionByteIsInvalidDirection := by
  intro b s hs hto hfrom huns
  have hclass : b ≠ dirToByte ∧ b ≠ dirFromByte ∧ b ≠ dirUnsByte := ⟨hto, hfrom, huns⟩
  have hnone : dirOf b = none := dirOf_eq_none_iff.2 hclass
  rcases hs with hs | hs <;>
    exact row_and_pFeed hs (by simp [decodeByte_eq, hclass]) (by simp [feedPure, hs, hnone])

theorem ParserInv.payload_of_s13 {p : ParserState} (hi : ParserInv p) (hs : p.stateId = some .s13) :
    p.payload.length + p.remaining.toNat ≤ 65535 := by
  simp only [ParserInv, hs] at hi
  obtain ⟨F, L, -, hlen, -⟩ := hi
  have := L.isLt
  omega

/-- Settles O32: the payload rule on a ParserState, and the invariant's bound on what is held and what remains. -/
theorem v2PayloadByteIsAppended : Obligations.V2PayloadByteIsAppended := by
  intro d s hs hr hfree p
  refine and_assoc.1 ⟨?run, fun hinv => ?held⟩
  case run => exact row_and_pFeed hs (by simp [decodeByte_eq]) (feedPure_payloadV2 hs hr hfree d)
  case held =>
    have hbound := hinv.payload_of_s13 hs
    show (s.curParser.payload ++ [d]).length ≤ 65535
    simp only [List.length_append, List.length_singleton]
    omega

/-- A byte that `feedPure` refuses, its row and `P.FEED` both refuse. -/
theorem row_and_pFeed_refused {s : State} {st : StateId} {b : Byte} {i : Instr} {e : Refusal}
    (hs : s.curParser.stateId = some st)
    (hi : decodeByte ⟨st, s.curParser.xorAcc, crcFinal s.curParser.crcAcc⟩ b = some i)
    (hf : feedPure s.curParser b = .error e) : exec i s = .refused e ∧ exec (.pFeed b) s = .refused e := by
  have hfeed : exec (.pFeed b) s = .refused e := by
    rw [show exec (.pFeed b) s = execPFeed b s from rfl, execPFeed_eq, hf]; rfl
  exact ⟨exec_pFeed_of_decodeByte (context_of_stateId hs) hi ▸ hfeed, hfeed⟩

/-- Settles O37: no row decodes there; and in S6 and S13 `remaining` is tested first, then the buffer. -/
theorem unreachableParserStatesAreRefused : Obligations.UnreachableParserStatesAreRefused := by
  intro s b
  refine ⟨fun hs => ⟨?feed, fun later => ?line⟩, fun hs => ⟨fun hr => ?done6, fun hr hfull => ?full6⟩,
    fun hs => ⟨fun hr => ?done13, fun hr hfull => ?full13⟩⟩
  case feed => show execPFeed b s = _; rw [execPFeed, hs]
  case line =>
    exact step_of_unreachable (s := { s with pending := ⟨s.cur, .byte b⟩ :: later }) rfl (Option.map_eq_none_iff.2 hs)
  case done6 => exact row_and_pFeed_refused hs (by simp [decodeByte_eq]) (by simp [feedPure, hs, hr])
  case full6 =>
    have hcap : Config.pbufCap ≤ s.curParser.payload.length := hfull
    exact row_and_pFeed_refused hs (by simp [decodeByte_eq]) (by simp only [feedPure, hs, hr, hcap, if_true, if_false])
  case done13 => exact row_and_pFeed_refused hs (by simp [decodeByte_eq]) (by simp [feedPure, hs, hr])
  case full13 =>
    have hcap : Config.pbufCap ≤ s.curParser.payload.length := hfull
    exact row_and_pFeed_refused hs (by simp [decodeByte_eq]) (by simp only [feedPure, hs, hr, hcap, if_true, if_false])

/-- Settles O56: each word is decoded by evaluation. -/
theorem writtenOutWordsDecode : Obligations.WrittenOutWordsDecode := by
  unfold Obligations.WrittenOutWordsDecode
  decide

/-- Settles O57, by the kinds of results. -/
theorem errorCodesFollowTheList : Obligations.ErrorCodesFollowTheList := by
  intro r
  cases r with
  | feed r =>
    cases r with
    | noFrame => simp [Result.code]
    | frame f => simp [Result.code]
    | err e => cases e <;> simp [Result.code]
  | ser r => cases r <;> simp [Result.code]
  | size n => simp [Result.code]
  | xorValue b => simp [Result.code]
  | crcValue b => simp [Result.code]

end Sys2Proof.Machine
